-- ==== Sys2Proof/Word.lean ====
section
/-! DEFINITION. The words of the machine (00_scope.md R6, R8). All are unsigned. -/

namespace Sys2Proof

/-- A Word: an instruction word, a memory cell, a register, a stack entry, `ip` (R6, `WORD_BITS`). -/
abbrev Word := BitVec 16

/-- One character of the input or the output channel (R6, `IN_BITS`, `OUT_BITS`). -/
abbrev Byte := BitVec 8

/-- A data value, 0 to 32767 (R6, `DATA_BITS`; R10): what a source operand resolves to.
DEDUCED, safe (log entry 8): R96 makes every resolved value fit these 15 bits. -/
abbrev DataValue := BitVec 15

/-- The index of a general register (10_state.md R20). -/
abbrev RegIndex := Fin 8

/-- A data value as a Word: bit 15 is 0 (30_encoding.md R73). -/
def DataValue.word (v : DataValue) : Word := v.setWidth 16

end Sys2Proof
end

