-- ==== Sys2Proof/Config.lean ====
section
/-! DEFINITION. The parameters of 00_scope.md R6. The spec fixes every architectural size; the one open
parameter is `STACK_CAPACITY`, whose normative value stands here and which State holds (log entry 5).
There is no free value: "Nothing in the step draws a free value" (40_fetch_decode_step.md R103). -/

namespace Sys2Proof.Config

/-- `MODULUS` of ADD and MULT (R6). -/
@[simp] abbrev modulus : Nat := 32768

/-- `MEM_WORDS`: the cells are 0 to 32767 (R6, 10_state.md R23). -/
@[simp] abbrev memWords : Nat := 32768

/-- `REG_BASE`: the raw operand that names register 0 (R6). -/
@[simp] abbrev regBase : Nat := 32768

/-- `REG_TOP`: the raw operand that names register 7 (R6). -/
@[simp] abbrev regTop : Nat := 32775

/-- `NUM_OPCODES`: an opcode word from here on is Invalid (R6, 30_encoding.md R78). -/
@[simp] abbrev numOpcodes : Nat := 22

/-- `RESET_IP` (R6). -/
def resetIp : Word := 0

/-- What a memory cell, and so an unlisted address, holds at reset (10_state.md R39). -/
def emptyCell : Word := 0

/-- `STACK_CAPACITY`, normative value: unbounded (R6, 92_eei_decisions.md D9). -/
def stackCapacity : Option Nat := none

end Sys2Proof.Config
end

