-- ==== Sys2Proof/Syntax.lean ====
section
/-! DEFINITION. The instructions: one constructor for each row of spec/opcode_table.json (30_encoding.md
R76), over argument words already put into their classes (R73, R74; 40_fetch_decode_step.md R95). -/

namespace Sys2Proof

/-- A source argument word by its class (R73). An invalid word is kept: it is a fault of the
instruction that resolves it, not of the decoder (R79). -/
inductive Operand where
  | lit (v : DataValue)
  | reg (r : RegIndex)
  | bad (w : Word)
  deriving DecidableEq, Repr

/-- A register-destination argument word (R74): a register reference, or any other word, which is kept
for the fault `BadDestination`. -/
inductive Destination where
  | reg (r : RegIndex)
  | bad (w : Word)
  deriving DecidableEq, Repr

/-- The 22 instructions in opcode order and the Invalid encoding with its opcode word (R76, R78). The
arguments are `a`, `b`, `c` in decode order (R70). -/
inductive Instr where
  | halt
  | set (a : Destination) (b : Operand)
  | push (a : Operand)
  | pop (a : Destination)
  | eq (a : Destination) (b c : Operand)
  | gt (a : Destination) (b c : Operand)
  | jmp (a : Operand)
  | jt (a b : Operand)
  | jf (a b : Operand)
  | add (a : Destination) (b c : Operand)
  | mult (a : Destination) (b c : Operand)
  | mod (a : Destination) (b c : Operand)
  | and_ (a : Destination) (b c : Operand)
  | or_ (a : Destination) (b c : Operand)
  | not_ (a : Destination) (b : Operand)
  | rmem (a : Destination) (b : Operand)
  | wmem (a b : Operand)
  | call (a : Operand)
  | ret
  | out (a : Operand)
  | in_ (a : Destination)
  | noop
  | invalid (w : Word)
  deriving DecidableEq, Repr

/-- One argument with its role (R74). -/
inductive Argument where
  | source (o : Operand)
  | dest (d : Destination)
  deriving DecidableEq, Repr

/-- The arguments in decode order with their roles: the column "roles" of R76. -/
def Instr.arguments : Instr → List Argument
  | .halt => []
  | .set a b => [.dest a, .source b]
  | .push a => [.source a]
  | .pop a => [.dest a]
  | .eq a b c => [.dest a, .source b, .source c]
  | .gt a b c => [.dest a, .source b, .source c]
  | .jmp a => [.source a]
  | .jt a b => [.source a, .source b]
  | .jf a b => [.source a, .source b]
  | .add a b c => [.dest a, .source b, .source c]
  | .mult a b c => [.dest a, .source b, .source c]
  | .mod a b c => [.dest a, .source b, .source c]
  | .and_ a b c => [.dest a, .source b, .source c]
  | .or_ a b c => [.dest a, .source b, .source c]
  | .not_ a b => [.dest a, .source b]
  | .rmem a b => [.dest a, .source b]
  | .wmem a b => [.source a, .source b]
  | .call a => [.source a]
  | .ret => []
  | .out a => [.source a]
  | .in_ a => [.dest a]
  | .noop => []
  | .invalid _ => []

end Sys2Proof
end

