-- ==== Sys2Proof/WellFormed.lean ====
section
/-! DEFINITION. Which terms of the syntax are the reading of some words: an operand kept as `bad` is of no
legal class, and an Invalid instruction's opcode word is above 21. -/

namespace Sys2Proof

/-- A source kept as a raw word is of the invalid class, above 32775 (30_encoding.md R73). -/
def Operand.wellFormed : Operand → Bool
  | .lit _ => true
  | .reg _ => true
  | .bad w => decide (Config.regTop < w.toNat)

/-- A destination kept as a raw word is no register reference (30_encoding.md R74). -/
def Destination.wellFormed : Destination → Bool
  | .reg _ => true
  | .bad w => decide (w.toNat < Config.regBase ∨ Config.regTop < w.toNat)

def Argument.wellFormed : Argument → Bool
  | .source o => o.wellFormed
  | .dest d => d.wellFormed

/-- The opcode word of an Invalid instruction is one of 22 to 65535 (30_encoding.md R78). -/
def invalidOpcode (w : Word) : Bool := decide (Config.numOpcodes ≤ w.toNat)

def Instr.wellFormed : Instr → Bool
  | .halt => true
  | .set a b => a.wellFormed && b.wellFormed
  | .push a => a.wellFormed
  | .pop a => a.wellFormed
  | .eq a b c => a.wellFormed && b.wellFormed && c.wellFormed
  | .gt a b c => a.wellFormed && b.wellFormed && c.wellFormed
  | .jmp a => a.wellFormed
  | .jt a b => a.wellFormed && b.wellFormed
  | .jf a b => a.wellFormed && b.wellFormed
  | .add a b c => a.wellFormed && b.wellFormed && c.wellFormed
  | .mult a b c => a.wellFormed && b.wellFormed && c.wellFormed
  | .mod a b c => a.wellFormed && b.wellFormed && c.wellFormed
  | .and_ a b c => a.wellFormed && b.wellFormed && c.wellFormed
  | .or_ a b c => a.wellFormed && b.wellFormed && c.wellFormed
  | .not_ a b => a.wellFormed && b.wellFormed
  | .rmem a b => a.wellFormed && b.wellFormed
  | .wmem a b => a.wellFormed && b.wellFormed
  | .call a => a.wellFormed
  | .ret => true
  | .out a => a.wellFormed
  | .in_ a => a.wellFormed
  | .noop => true
  | .invalid w => invalidOpcode w

end Sys2Proof
end

