-- ==== Sys2Proof/Decode.lean ====
section
/-! DEFINITION. The decoder, total on any list of words and rejecting by name, and the encoder after it,
both from 30_encoding.md R70 to R78 and the argument counts of 40_fetch_decode_step.md R94. -/

namespace Sys2Proof

/-- The class of a source argument word (30_encoding.md R73). -/
def operandOf (w : Word) : Operand :=
  if w.toNat < Config.regBase then .lit (w.setWidth 15)
  else if w.toNat ≤ Config.regTop then .reg (Fin.ofNat 8 (w.toNat - Config.regBase))
  else .bad w

/-- The class of a destination argument word (30_encoding.md R74). -/
def destinationOf (w : Word) : Destination :=
  if Config.regBase ≤ w.toNat ∧ w.toNat ≤ Config.regTop then
    .reg (Fin.ofNat 8 (w.toNat - Config.regBase))
  else .bad w

/-- The table of argument counts by opcode (40_fetch_decode_step.md R94). -/
def argCounts : List Nat :=
  [0, 2, 1, 1, 3, 3, 1, 2, 2, 3, 3, 3, 3, 3, 2, 2, 2, 1, 0, 1, 1, 0]

/-- `argc`: how many argument words follow the opcode word; none follow an Invalid one (R93, R94). -/
def argc (w0 : Word) : Nat := argCounts.getD w0.toNat 0

/-- Why a list of words is no instruction. -/
inductive DecodeError where
  | noOpcodeWord
  | missingArgument (opcode : Word) (present : Nat)
  deriving DecidableEq, Repr

/-- What decoding answers: the instruction and the words after it. -/
abbrev Decoded := Except DecodeError (Instr × List Word)

def decode1 (w0 : Word) (mk : Word → Instr) : List Word → Decoded
  | a :: rest => .ok (mk a, rest)
  | short => .error (.missingArgument w0 short.length)

def decode2 (w0 : Word) (mk : Word → Word → Instr) : List Word → Decoded
  | a :: b :: rest => .ok (mk a b, rest)
  | short => .error (.missingArgument w0 short.length)

def decode3 (w0 : Word) (mk : Word → Word → Word → Instr) : List Word → Decoded
  | a :: b :: c :: rest => .ok (mk a b c, rest)
  | short => .error (.missingArgument w0 short.length)

/-- The rows of 30_encoding.md R76 with a destination and two sources. -/
def decodeDSS (w0 : Word) (mk : Destination → Operand → Operand → Instr) : List Word → Decoded :=
  decode3 w0 fun a b c => mk (destinationOf a) (operandOf b) (operandOf c)

/-- The rows with a destination and one source. -/
def decodeDS (w0 : Word) (mk : Destination → Operand → Instr) : List Word → Decoded :=
  decode2 w0 fun a b => mk (destinationOf a) (operandOf b)

/-- The rows with two sources. -/
def decodeSS (w0 : Word) (mk : Operand → Operand → Instr) : List Word → Decoded :=
  decode2 w0 fun a b => mk (operandOf a) (operandOf b)

/-- The rows with a destination alone. -/
def decodeD (w0 : Word) (mk : Destination → Instr) : List Word → Decoded :=
  decode1 w0 fun a => mk (destinationOf a)

/-- The rows with one source. -/
def decodeS (w0 : Word) (mk : Operand → Instr) : List Word → Decoded :=
  decode1 w0 fun a => mk (operandOf a)

/-- The decoder: the opcode word, compared as a whole number, selects the row; every word above 21 is
the Invalid encoding and takes no argument (30_encoding.md R75 to R78). -/
def decode : List Word → Decoded
  | [] => .error .noOpcodeWord
  | w0 :: rest =>
    match w0.toNat with
    | 0 => .ok (.halt, rest)
    | 1 => decodeDS w0 .set rest
    | 2 => decodeS w0 .push rest
    | 3 => decodeD w0 .pop rest
    | 4 => decodeDSS w0 .eq rest
    | 5 => decodeDSS w0 .gt rest
    | 6 => decodeS w0 .jmp rest
    | 7 => decodeSS w0 .jt rest
    | 8 => decodeSS w0 .jf rest
    | 9 => decodeDSS w0 .add rest
    | 10 => decodeDSS w0 .mult rest
    | 11 => decodeDSS w0 .mod rest
    | 12 => decodeDSS w0 .and_ rest
    | 13 => decodeDSS w0 .or_ rest
    | 14 => decodeDS w0 .not_ rest
    | 15 => decodeDS w0 .rmem rest
    | 16 => decodeSS w0 .wmem rest
    | 17 => decodeS w0 .call rest
    | 18 => .ok (.ret, rest)
    | 19 => decodeS w0 .out rest
    | 20 => decodeD w0 .in_ rest
    | 21 => .ok (.noop, rest)
    | _ => .ok (.invalid w0, rest)

/-- The raw word of register reference `r`: 32768 + r (30_encoding.md R73). -/
def regWord (r : RegIndex) : Word := BitVec.ofNat 16 (Config.regBase + r.val)

/-- The raw argument word of a source (30_encoding.md R73). -/
def Operand.word : Operand → Word
  | .lit v => v.word
  | .reg r => regWord r
  | .bad w => w

/-- The raw argument word of a destination (30_encoding.md R74). -/
def Destination.word : Destination → Word
  | .reg r => regWord r
  | .bad w => w

def Argument.word : Argument → Word
  | .source o => o.word
  | .dest d => d.word

/-- Word 0 of an instruction (30_encoding.md R76, column "word 0"). -/
def Instr.opcodeWord : Instr → Word
  | .halt => 0x0000
  | .set _ _ => 0x0001
  | .push _ => 0x0002
  | .pop _ => 0x0003
  | .eq _ _ _ => 0x0004
  | .gt _ _ _ => 0x0005
  | .jmp _ => 0x0006
  | .jt _ _ => 0x0007
  | .jf _ _ => 0x0008
  | .add _ _ _ => 0x0009
  | .mult _ _ _ => 0x000A
  | .mod _ _ _ => 0x000B
  | .and_ _ _ _ => 0x000C
  | .or_ _ _ _ => 0x000D
  | .not_ _ _ => 0x000E
  | .rmem _ _ => 0x000F
  | .wmem _ _ => 0x0010
  | .call _ => 0x0011
  | .ret => 0x0012
  | .out _ => 0x0013
  | .in_ _ => 0x0014
  | .noop => 0x0015
  | .invalid w => w

/-- The words of an instruction: the opcode word, then the arguments in decode order (R70). -/
def encode (i : Instr) : List Word := i.opcodeWord :: i.arguments.map Argument.word

/-- The words of an instruction given as one number, bit 0 the lowest bit of the first word; the bits
from `nbits` on are 0. Four words, the longest instruction (R71). -/
def tableWords (nbits w : Nat) : List Word :=
  let v := w % 2 ^ nbits
  [BitVec.ofNat 16 v, BitVec.ofNat 16 (v >>> 16), BitVec.ofNat 16 (v >>> 32), BitVec.ofNat 16 (v >>> 48)]

/-- What the decoder reads from an instruction whose bits are `w`. -/
def decodeTableWord (nbits w : Nat) : Option Instr :=
  match decode (tableWords nbits w) with
  | .ok (i, _) => some i
  | .error _ => none

end Sys2Proof
end

