-- ==== Sys2Proof/Machine/State.lean ====
section
/-! DEFINITION. The state of the machine as plain data (10_state.md), its value after reset, and the reasons
the host's interface knows for a step that gives no next state. -/

namespace Sys2Proof.Machine

/-- Why a machine halted gracefully (60_exceptions.md R171). -/
inductive HaltReason where
  | haltOpcode
  | emptyStackReturn
  | invalidOpcode
  deriving DecidableEq, Repr

/-- The fatal faults of the machine (60_exceptions.md R175). -/
inductive FaultKind where
  | badOperand
  | badDestination
  | stackUnderflow
  | inputExhausted
  | divideByZero
  | fetchOutOfRange
  | nonDataValue
  | stackOverflow
  deriving DecidableEq, Repr

/-- A fatal fault with its info word, before it is taken. -/
structure FaultEvent where
  kind : FaultKind
  info : Word
  deriving DecidableEq, Repr

/-- `RUN` (10_state.md R32). -/
inductive RunState where
  | running
  | halted (reason : HaltReason) (info : Word)
  | faulted (kind : FaultKind) (info : Word)
  deriving DecidableEq, Repr

/-- The input channel: the bytes not yet consumed, and whether the input is closed (10_state.md R35). -/
structure InputChannel where
  queue : List Byte
  closed : Bool
  deriving DecidableEq, Repr

/-- What the input channel answers to IN (10_state.md R35). -/
inductive InputAnswer where
  | byte (b : Byte)
  | eof
  | notReady
  deriving DecidableEq, Repr

/-- Memory: the cells that do not hold what an unlisted address reads as, at strictly rising addresses
(`Memory.wf`). A cell is one 16-bit word, the smallest unit the spec addresses (20_memory.md R50).
DESIGN CHOICE, safe (log entry 6): sparse, and keyed by word address. -/
structure Memory where
  cells : List (Nat × Word)
  deriving DecidableEq, Repr

/-- The whole state (10_state.md, first section). -/
structure State where
  /-- `x[0]` to `x[7]` (R20). -/
  regs : Vector Word 8
  /-- `mem` (R23). -/
  mem : Memory
  /-- The execution stack, its top the last element (R29). -/
  stack : List Word
  /-- The instruction pointer (R26). -/
  ip : Word
  /-- `RUN` (R32). -/
  run : RunState
  /-- The input channel (R35). -/
  inp : InputChannel
  /-- The output channel, oldest byte first (R36). -/
  out : List Byte
  /-- The parameter `STACK_CAPACITY` (00_scope.md R6), which no step changes.
  DESIGN CHOICE, safe (log entry 5): a field, so that a finite stack is modelled too. -/
  stackCapacity : Option Nat
  deriving DecidableEq, Repr

/-- Why a step has no next state. The fatal faults of the spec are NOT here: taking one is a next state
with `RUN = Faulted` (60_exceptions.md R176; log entry 1). -/
inductive Fault where
  /-- Raised by `step` alone, if the fetch handed the decoder fewer words than the opcode takes. Safe: it
  stops, and `Laws/Step.lean` proves that no state raises it (log entry 9). -/
  | fetchTooShort
  deriving DecidableEq, Repr

/-- Why the model gives no meaning. -/
inductive Refusal where
  /-- An instruction without a meaning; no arm of `exec` answers it. Safe: it stops. -/
  | notModelled (mnemonic : String)
  /-- Raised by `load`: the image has more than 32768 whole words, for which the spec defines no run
  (70_reset_and_hazards.md R205). Safe: it stops. -/
  | imageTooLong
  /-- Raised by `load`: the machine is not in the state of reset, where alone the spec has a load
  (70_reset_and_hazards.md R202, R203). Safe: it stops. -/
  | loadNotAtReset
  deriving DecidableEq, Repr

abbrev Result := Host.Outcome State Fault Refusal

/-- The state after reset (10_state.md R39, 70_reset_and_hazards.md R200), for a stack capacity and the input
channel that the environment gives. -/
def State.resetWith (capacity : Option Nat) (inp : InputChannel) : State where
  regs := Vector.replicate 8 0
  mem := ⟨[]⟩
  stack := []
  ip := Config.resetIp
  run := .running
  inp := inp
  out := []
  stackCapacity := capacity

/-- The machine right after reset, with the unbounded stack. R39 leaves `inp` to the environment:
DESIGN CHOICE, unsafe (log entry 4): empty and closed, as in the vectors of 95_test_vectors.md. -/
def State.reset : State := State.resetWith Config.stackCapacity ⟨[], true⟩

end Sys2Proof.Machine
end

