-- ==== Sys2Proof/Machine/Ops.lean ====
section
/-! DEFINITION. The named operations over memory, registers, stack and channels, the fetch, and the two ways
a step ends a run: taking a fatal fault and halting. -/

namespace Sys2Proof.Machine

/-! Memory (20_memory.md). -/

/-- The word an address holds among the listed cells; an unlisted address holds its reset value. -/
def lookupCell : List (Nat × Word) → Nat → Word
  | [], _ => Config.emptyCell
  | (b, w) :: rest, a => if a = b then w else lookupCell rest a

/-- A cell put in front of later ones, unless it holds what an unlisted address reads as. -/
def consCell (a : Nat) (v : Word) (rest : List (Nat × Word)) : List (Nat × Word) :=
  if v = Config.emptyCell then rest else (a, v) :: rest

/-- The listed cells after address `a` takes the word `v`. -/
def insertCell : List (Nat × Word) → Nat → Word → List (Nat × Word)
  | [], a, v => consCell a v []
  | (b, w) :: rest, a, v =>
    if a < b then consCell a v ((b, w) :: rest)
    else if a = b then consCell a v rest
    else (b, w) :: insertCell rest a v

/-- Cells at strictly rising addresses from `lo` on, all below 32768, none holding the reset value. -/
def cellsWf : Nat → List (Nat × Word) → Bool
  | _, [] => true
  | lo, (a, w) :: rest =>
    decide (lo ≤ a) && decide (a < Config.memWords) && decide (w ≠ Config.emptyCell) && cellsWf (a + 1) rest

/-- The canonical form of memory. -/
def Memory.wf (m : Memory) : Bool := cellsWf 0 m.cells

/-- `MemRead(a, 1)`, defined for addresses up to 32767 (20_memory.md R51); no caller passes another
(log entry 7). -/
def Memory.read (m : Memory) (a : Nat) : Word := lookupCell m.cells a

/-- `MemWrite(a, 1, v)`, defined for addresses up to 32767 (20_memory.md R53). DESIGN CHOICE, safe (log
entry 7): at any other address, which no caller passes, nothing is written. -/
def Memory.write (m : Memory) (a : Nat) (v : Word) : Memory :=
  if a < Config.memWords then ⟨insertCell m.cells a v⟩ else m

/-! Updates of one field each; every meaning is made of them. -/

def State.readReg (s : State) (r : RegIndex) : Word := s.regs[r]

/-- `x[r] <- v`: all 16 bits, no mask (10_state.md R22). -/
def State.writeReg (s : State) (r : RegIndex) (v : Word) : State := { s with regs := s.regs.set r v }

def State.writeMem (s : State) (a : Nat) (v : Word) : State := { s with mem := s.mem.write a v }

def State.setIp (s : State) (t : Word) : State := { s with ip := t }

def State.setRun (s : State) (r : RunState) : State := { s with run := r }

/-- `Push(v)` on a stack that has room (10_state.md R30). -/
def State.pushWord (s : State) (v : Word) : State := { s with stack := s.stack ++ [v] }

/-- The top entry removed: half of `Pop()` (10_state.md R31). -/
def State.dropTop (s : State) : State := { s with stack := s.stack.dropLast }

/-- `Out(b)`; the channel always accepts (10_state.md R36; log entry 14). -/
def State.emit (s : State) (b : Byte) : State := { s with out := s.out ++ [b] }

/-- The head of the input queue consumed (10_state.md R35). -/
def State.dropInput (s : State) : State := { s with inp := { s.inp with queue := s.inp.queue.tail } }

/-- The address `n` words after `ip`. DEDUCED, safe (log entry 10): the 16-bit sum never wraps in a step,
since every word of the instruction was fetched from an address up to 32767 (10_state.md R28). -/
def State.after (s : State) (n : Nat) : Word := s.ip + BitVec.ofNat 16 n

/-! The ends of a run (60_exceptions.md). -/

/-- Taking a fatal fault: `RUN` changes and nothing else does, so `ip` still holds the address of the
faulting instruction (60_exceptions.md R176). There is no return from it (R180) but reset
(`State.resetFrom`). -/
def State.raise (s : State) (e : FaultEvent) : State := s.setRun (.faulted e.kind e.info)

/-- A graceful halt: `ip` moves past the opcode word, `RUN` changes, nothing else does
(60_exceptions.md R171). -/
def State.halt (s : State) (r : HaltReason) (info : Word) : State :=
  (s.setIp (s.after 1)).setRun (.halted r info)

/-- Reset, from any state: nothing survives but the hardware's own stack capacity; the environment gives
the input channel (70_reset_and_hazards.md R200, 10_state.md R39). -/
def State.resetFrom (s : State) (inp : InputChannel) : State := State.resetWith s.stackCapacity inp

/-! Shared parts of the meanings. -/

/-- The write that ends an instruction of `n` words with a register destination
(40_fetch_decode_step.md R99). -/
def complete (s : State) (d : RegIndex) (v : Word) (n : Nat) : Result :=
  .next ((s.writeReg d v).setIp (s.after n))

/-- Whether the stack holds `STACK_CAPACITY` entries; an unbounded stack never does (10_state.md R30). -/
def State.stackFull (s : State) : Bool := s.stackCapacity == some s.stack.length

/-- A push that ends an instruction, `ip` going to `t`: on a full stack the fault `StackOverflow`
(42_stack_control.md R131, R137). -/
def pushThen (s : State) (v t : Word) : Result :=
  if s.stackFull then .next (s.raise ⟨.stackOverflow, 0⟩) else .next ((s.pushWord v).setIp t)

/-- `In()` (10_state.md R35). -/
def InputChannel.answer (c : InputChannel) : InputAnswer :=
  match c.queue with
  | b :: _ => .byte b
  | [] => if c.closed then .eof else .notReady

/-! The fetch (40_fetch_decode_step.md R91). The error is the address beyond memory. -/

def fetchWord (m : Memory) (a : Nat) : Except Nat Word :=
  if a < Config.memWords then .ok (m.read a) else .error a

/-- `n` argument words from address `a` on, in increasing order. -/
def fetchArgs (m : Memory) (a : Nat) : Nat → Except Nat (List Word)
  | 0 => .ok []
  | n + 1 =>
    match fetchWord m a with
    | .error e => .error e
    | .ok w =>
      match fetchArgs m (a + 1) n with
      | .error e => .error e
      | .ok ws => .ok (w :: ws)

/-- The opcode word at `a` and as many argument words as it takes. -/
def fetch (m : Memory) (a : Nat) : Except Nat (List Word) :=
  match fetchWord m a with
  | .error e => .error e
  | .ok w0 =>
    match fetchArgs m (a + 1) (argc w0) with
    | .error e => .error e
    | .ok ws => .ok (w0 :: ws)

/-- The step of a machine whose fetch met an address beyond memory (40_fetch_decode_step.md R91). -/
def fetchFault (s : State) (a : Nat) : Result := .next (s.raise ⟨.fetchOutOfRange, BitVec.ofNat 16 a⟩)

/-- The step of a machine that is not running: no state changes (10_state.md R33). DESIGN CHOICE, unsafe
(log entry 2): it answers the same state. -/
def idle (s : State) : Result := .next s

/-- Consecutive cells from `a` on take the words. -/
def storeWords (m : Memory) (a : Nat) : List Word → Memory
  | [] => m
  | w :: ws => storeWords (m.write a w) (a + 1) ws

end Sys2Proof.Machine
end

