-- ==== Sys2Proof/Machine/Operands.lean ====
section
/-! DEFINITION. Operand resolution (40_fetch_decode_step.md R95 to R98). -/

namespace Sys2Proof.Machine

/-- `Resolve` of a source argument (40_fetch_decode_step.md R96). -/
def resolve (s : State) : Operand → Except FaultEvent DataValue
  | .lit v => .ok v
  | .reg r =>
    if (s.readReg r).toNat ≤ 32767 then .ok ((s.readReg r).setWidth 15)
    else .error ⟨.nonDataValue, regWord r⟩
  | .bad w => .error ⟨.badOperand, w⟩

/-- `DestIndex` of a register-destination argument; it reads no register (40_fetch_decode_step.md R97). -/
def destIndex : Destination → Except FaultEvent RegIndex
  | .reg r => .ok r
  | .bad w => .error ⟨.badDestination, w⟩

/-- The rest of an instruction after the source `o`, or the fault that `o` raises. Nested in decode order,
these two give the order of R98: every argument is checked before anything is done. -/
def withSource (s : State) (o : Operand) (k : DataValue → Result) : Result :=
  match resolve s o with
  | .ok v => k v
  | .error e => .next (s.raise e)

/-- The rest of an instruction after the destination `d`, or the fault that `d` raises. -/
def withDest (s : State) (d : Destination) (k : RegIndex → Result) : Result :=
  match destIndex d with
  | .ok r => k r
  | .error e => .next (s.raise e)

/-- An instruction `a, b` with a destination, a source and the result `f vb` (41_arith_logic.md R110). -/
def unary (f : DataValue → Word) (a : Destination) (b : Operand) (s : State) : Result :=
  withDest s a fun d => withSource s b fun vb => complete s d (f vb) 3

/-- An instruction `a, b, c` with a destination, two sources and the result `f vb vc`
(41_arith_logic.md R110). -/
def binary (f : DataValue → DataValue → Word) (a : Destination) (b c : Operand) (s : State) : Result :=
  withDest s a fun d => withSource s b fun vb => withSource s c fun vc => complete s d (f vb vc) 4

/-- A jump `a, b` that is taken where the condition holds of `va`; the target is resolved either way
(42_stack_control.md R142, R143; 90_conflicts.md C1). -/
def jumpIf (taken : DataValue → Bool) (a b : Operand) (s : State) : Result :=
  withSource s a fun va => withSource s b fun vb =>
    .next (s.setIp (if taken va then vb.word else s.after 3))

end Sys2Proof.Machine
end

