-- ==== Sys2Proof/Machine/Flags.lean ====
section
/-! DEFINITION. This hardware has no flags (10_state.md R37). What stands in their place: the words that a
comparison writes, the conditions of the jumps, and the `STATUS` word by which the environment observes
`RUN` (R34), which no instruction reads or writes. -/

namespace Sys2Proof.Machine

/-- A comparison's result: exactly 1 or 0 (10_state.md R37). -/
def truthWord (b : Bool) : Word := if b then 1 else 0

/-- The condition of JF (42_stack_control.md R143). -/
def isZero (v : DataValue) : Bool := v == 0

/-- The condition of JT: any value but 0 (42_stack_control.md R142). -/
def isNonzero (v : DataValue) : Bool := v != 0

/-- `STATUS.code` of a graceful halt (60_exceptions.md R171). -/
def HaltReason.code : HaltReason → BitVec 4
  | .haltOpcode => 0
  | .emptyStackReturn => 1
  | .invalidOpcode => 2

/-- `STATUS.code` of a fatal fault (60_exceptions.md R175). -/
def FaultKind.code : FaultKind → BitVec 4
  | .badOperand => 1
  | .badDestination => 2
  | .stackUnderflow => 3
  | .inputExhausted => 4
  | .divideByZero => 5
  | .fetchOutOfRange => 6
  | .nonDataValue => 7
  | .stackOverflow => 8

/-- The fields of `STATUS` put together: info 31:16, code 7:4, state 1:0, the others 0 (10_state.md R34). -/
def packStatus (info : Word) (code : BitVec 4) (state : BitVec 2) : BitVec 32 :=
  info ++ (0 : BitVec 8) ++ code ++ (0 : BitVec 2) ++ state

/-- `STATUS` for a value of `RUN` (10_state.md R34). -/
def RunState.status : RunState → BitVec 32
  | .running => packStatus 0 0 0
  | .halted r info => packStatus info r.code 1
  | .faulted k info => packStatus info k.code 2

/-- The read-only `STATUS` word (10_state.md R34). -/
def State.status (s : State) : BitVec 32 := s.run.status

/-- The source's boolean "continue" signal after a step (10_state.md R33). -/
def State.continues (s : State) : Bool := s.run == .running

end Sys2Proof.Machine
end

