-- ==== Sys2Proof/Machine/Alu.lean ====
section
/-! DEFINITION. The ALU sub-block: combinational, on resolved values, all unsigned (41_arith_logic.md R110,
R121, R122). Its inputs are data values by type, so that it has no meaning for an input with bit 15 set
(R122). -/

namespace Sys2Proof.Machine.Alu

/-- R115: the exact sum, then modulo 32768. -/
def add (b c : DataValue) : Word := BitVec.ofNat 16 ((b.toNat + c.toNat) % Config.modulus)

/-- R116: the exact product, then modulo 32768. -/
def mult (b c : DataValue) : Word := BitVec.ofNat 16 ((b.toNat * c.toNat) % Config.modulus)

/-- R117: the unsigned remainder; none for a zero divisor, the ALU's divide-by-zero indication. -/
def mod (b c : DataValue) : Option Word :=
  if c.toNat = 0 then none else some (BitVec.ofNat 16 (b.toNat % c.toNat))

/-- R118. -/
def and (b c : DataValue) : Word := b.word &&& c.word

/-- R119. -/
def or (b c : DataValue) : Word := b.word ||| c.word

/-- R120: the 16-bit complement, then bit 15 cleared. -/
def not (b : DataValue) : Word := (~~~ b.word) &&& 0x7FFF

/-- R113. -/
def eq (b c : DataValue) : Word := truthWord (b.toNat == c.toNat)

/-- R114: strictly greater. -/
def gt (b c : DataValue) : Word := truthWord (decide (c.toNat < b.toNat))

end Sys2Proof.Machine.Alu
end

