-- ==== Sys2Proof/Machine/ArithLogic.lean ====
section
/-! DEFINITION. The meanings of SET, EQ, GT, ADD, MULT, MOD, AND, OR and NOT (41_arith_logic.md R112 to
R120). -/

namespace Sys2Proof.Machine

/-- R112. -/
def execSet (a : Destination) (b : Operand) (s : State) : Result := unary DataValue.word a b s

/-- R113. -/
def execEq (a : Destination) (b c : Operand) (s : State) : Result := binary Alu.eq a b c s

/-- R114. -/
def execGt (a : Destination) (b c : Operand) (s : State) : Result := binary Alu.gt a b c s

/-- R115. -/
def execAdd (a : Destination) (b c : Operand) (s : State) : Result := binary Alu.add a b c s

/-- R116. -/
def execMult (a : Destination) (b c : Operand) (s : State) : Result := binary Alu.mult a b c s

/-- R117: a divisor that resolves to 0 is the fault `DivideByZero`, after every operand check. -/
def execMod (a : Destination) (b c : Operand) (s : State) : Result :=
  withDest s a fun d => withSource s b fun vb => withSource s c fun vc =>
    match Alu.mod vb vc with
    | some r => complete s d r 4
    | none => .next (s.raise ⟨.divideByZero, 0⟩)

/-- R118. -/
def execAnd (a : Destination) (b c : Operand) (s : State) : Result := binary Alu.and a b c s

/-- R119. -/
def execOr (a : Destination) (b c : Operand) (s : State) : Result := binary Alu.or a b c s

/-- R120. -/
def execNot (a : Destination) (b : Operand) (s : State) : Result := unary Alu.not a b s

end Sys2Proof.Machine
end

