-- ==== Sys2Proof/Machine/MemoryIo.lean ====
section
/-! DEFINITION. The meanings of RMEM, WMEM, OUT, IN and NOOP (43_memory_io.md). -/

namespace Sys2Proof.Machine

/-- R151: all 16 bits of the cell whose address is the resolved `b`. -/
def execRmem (a : Destination) (b : Operand) (s : State) : Result :=
  withDest s a fun d => withSource s b fun vb => complete s d (s.mem.read vb.toNat) 3

/-- R153: both arguments are sources; the cell whose address is the resolved `a` takes the resolved `b`. -/
def execWmem (a b : Operand) (s : State) : Result :=
  withSource s a fun va => withSource s b fun vb =>
    .next ((s.writeMem va.toNat vb.word).setIp (s.after 3))

/-- R155: the low 8 bits. -/
def execOut (a : Operand) (s : State) : Result :=
  withSource s a fun va => .next ((s.emit (va.setWidth 8)).setIp (s.after 2))

/-- R157, R158: the channel is asked after the destination is checked. A channel that is not ready makes the
machine wait: no state changes and the same IN is attempted again. DESIGN CHOICE, unsafe (log entry 3): the
wait is a step that answers the same state. -/
def execIn (a : Destination) (s : State) : Result :=
  withDest s a fun d =>
    match s.inp.answer with
    | .byte b => complete s.dropInput d (b.setWidth 16) 2
    | .eof => .next (s.raise ⟨.inputExhausted, 0⟩)
    | .notReady => .next s

/-- R159: `ip` moves past the instruction and nothing else changes. -/
def execNoop (s : State) : Result := .next (s.setIp (s.after 1))

end Sys2Proof.Machine
end

