-- ==== Sys2Proof/Machine/StackControl.lean ====
section
/-! DEFINITION. The meanings of PUSH, POP, CALL, RET, JMP, JT and JF (42_stack_control.md). One stack holds
data and return addresses (R130). -/

namespace Sys2Proof.Machine

/-- R131. -/
def execPush (a : Operand) (s : State) : Result :=
  withSource s a fun va => pushThen s va.word (s.after 2)

/-- R133: all 16 bits of the top entry; the destination is checked before the stack. -/
def execPop (a : Destination) (s : State) : Result :=
  withDest s a fun d =>
    match s.stack.getLast? with
    | none => .next (s.raise ⟨.stackUnderflow, 0⟩)
    | some w => complete s.dropTop d w 2

/-- R137: the return address is the word after the argument. -/
def execCall (a : Operand) (s : State) : Result :=
  withSource s a fun va => pushThen s (s.after 2) va.word

/-- R139: an empty stack is a graceful halt; else all 16 bits of the top entry go to `ip`. -/
def execRet (s : State) : Result :=
  match s.stack.getLast? with
  | none => .next (s.halt .emptyStackReturn 0)
  | some w => .next (s.dropTop.setIp w)

/-- R141. -/
def execJmp (a : Operand) (s : State) : Result := withSource s a fun va => .next (s.setIp va.word)

/-- R142. -/
def execJt (a b : Operand) (s : State) : Result := jumpIf isNonzero a b s

/-- R143. -/
def execJf (a b : Operand) (s : State) : Result := jumpIf isZero a b s

end Sys2Proof.Machine
end

