-- ==== Sys2Proof/Machine/Terminate.lean ====
section
/-! DEFINITION. The meanings of HALT and of the Invalid encoding (40_fetch_decode_step.md R100, R101): graceful
halts, no faults. -/

namespace Sys2Proof.Machine

/-- R100. -/
def execHalt (s : State) : Result := .next (s.halt .haltOpcode 0)

/-- R101: the unrecognised opcode word is kept. -/
def execInvalid (w : Word) (s : State) : Result := .next (s.halt .invalidOpcode w)

end Sys2Proof.Machine
end

