-- ==== Sys2Proof/Machine/Step.lean ====
section
/-! DEFINITION. The step (40_fetch_decode_step.md R90, R102) and where a program's words are placed. -/

namespace Sys2Proof.Machine

/-- One step of a Running machine: fetch, decode, execute (40_fetch_decode_step.md R90, R102). -/
def stepRunning (s : State) : Host.Outcome State Fault Refusal :=
  match fetch s.mem s.ip.toNat with
  | .error a => fetchFault s a
  | .ok ws =>
    match decode ws with
    | .ok (i, _) => exec i s
    | .error _ => .fault .fetchTooShort

/-- The step. Only a Running machine executes (10_state.md R33). -/
def step (s : State) : Host.Outcome State Fault Refusal :=
  match s.run with
  | .running => stepRunning s
  | .halted _ _ => idle s
  | .faulted _ _ => idle s

/-- `s` with an instruction's words in the cells the next step fetches from, and Running. It stands for
the load of a program (log entry 11). -/
def State.withFetchWord (s : State) (nbits w : Nat) : State :=
  { s with mem := storeWords s.mem s.ip.toNat (tableWords nbits w), run := .running }

end Sys2Proof.Machine
end

