-- ==== Sys2Proof/Machine/Environment.lean ====
section
/-! DEFINITION. What the outside world does to the machine between its steps: the image load and the input
channel (70_reset_and_hazards.md R202 to R206, 10_state.md R35). Reset is `State.resetFrom`. -/

namespace Sys2Proof.Machine

/-- Memory after the image bytes are loaded from cell `k` on: pairs of bytes, the low byte first; an odd last
byte is dropped (70_reset_and_hazards.md R203, R204). -/
def loadBytes (m : Memory) (k : Nat) : List Byte → Memory
  | lo :: hi :: rest => loadBytes (m.write k (hi ++ lo)) (k + 1) rest
  | _ => m

/-- `Load(B)` (70_reset_and_hazards.md R203): only in the state of reset, and only an image of at most 32768
whole words (R205); it changes memory alone. -/
def load (image : List Byte) (s : State) : Result :=
  if s ≠ s.resetFrom s.inp then .refused .loadNotAtReset
  else if Config.memWords < image.length / 2 then .refused .imageTooLong
  else .next { s with mem := loadBytes s.mem 0 image }

/-- The start of a machine's life: reset, then the load (70_reset_and_hazards.md R202). -/
def boot (capacity : Option Nat) (inp : InputChannel) (image : List Byte) : Result :=
  load image (State.resetWith capacity inp)

/-- The environment appends bytes to the input queue (10_state.md R35). -/
def State.supplyInput (s : State) (bs : List Byte) : State :=
  { s with inp := { s.inp with queue := s.inp.queue ++ bs } }

/-- The environment closes the input (10_state.md R35). -/
def State.closeInput (s : State) : State := { s with inp := { s.inp with closed := true } }

end Sys2Proof.Machine
end

