-- ==== Sys2Proof/Safety.lean ====
section
/-! DEFINITION. The terms the claims are stated in: the invariants of 10_state.md R40, the reachable states, and
readings of an argument that are independent of the machine's own `resolve`. -/

namespace Sys2Proof.Machine

/-- The value of a source argument, where it has one (40_fetch_decode_step.md R96). -/
def sourceValue (s : State) : Operand → Option Nat
  | .lit v => some v.toNat
  | .reg r => if (s.readReg r).toNat ≤ 32767 then some (s.readReg r).toNat else none
  | .bad _ => none

/-- The fault an argument raises by its role, if any (40_fetch_decode_step.md R96, R97). -/
def argumentFault (s : State) : Argument → Option FaultEvent
  | .source (.lit _) => none
  | .source (.reg r) =>
    if 32767 < (s.readReg r).toNat then some ⟨.nonDataValue, BitVec.ofNat 16 (32768 + r.val)⟩ else none
  | .source (.bad w) => some ⟨.badOperand, w⟩
  | .dest (.reg _) => none
  | .dest (.bad w) => some ⟨.badDestination, w⟩

/-- The first fault among the arguments in decode order (40_fetch_decode_step.md R98). -/
def firstFault (s : State) (i : Instr) : Option FaultEvent := i.arguments.findSome? (argumentFault s)

/-- The word `ip` points at (10_state.md R26). -/
def State.opcodeAt (s : State) : Word := s.mem.read s.ip.toNat

/-- The `k`-th argument word of the instruction `ip` points at (30_encoding.md R70). -/
def State.argumentAt (s : State) (k : Nat) : Word := s.mem.read (s.ip.toNat + k)

/-- The payload of `RUN` is one that its reason or kind can carry (10_state.md R32, 60_exceptions.md R171,
R175). -/
def RunState.legal : RunState → Bool
  | .running => true
  | .halted .haltOpcode info => info == 0
  | .halted .emptyStackReturn info => info == 0
  | .halted .invalidOpcode info => decide (22 ≤ info.toNat)
  | .faulted .badOperand info => decide (32776 ≤ info.toNat)
  | .faulted .badDestination info => decide (info.toNat < 32768 ∨ 32776 ≤ info.toNat)
  | .faulted .stackUnderflow info => info == 0
  | .faulted .inputExhausted info => info == 0
  | .faulted .divideByZero info => info == 0
  | .faulted .fetchOutOfRange info => info == 32768
  | .faulted .nonDataValue info => decide (32768 ≤ info.toNat ∧ info.toNat ≤ 32775)
  | .faulted .stackOverflow info => info == 0

/-- The invariant of every reachable state (10_state.md R28, R30, R40, with the form of memory and the payload
of `RUN`). -/
structure State.Inv (s : State) : Prop where
  memory : s.mem.wf = true
  ip : s.ip.toNat ≤ 32768
  stack : ∀ w ∈ s.stack, w.toNat ≤ 32768
  room : ∀ k, s.stackCapacity = some k → s.stack.length ≤ k
  run : s.run.legal = true

/-- The cause of a graceful halt, with the info it records (60_exceptions.md R171). -/
def haltCause (s : State) : HaltReason → Word → Prop
  | .haltOpcode, info => s.opcodeAt = 0 ∧ info = 0
  | .emptyStackReturn, info => s.opcodeAt = 18 ∧ s.stack = [] ∧ info = 0
  | .invalidOpcode, info => 22 ≤ s.opcodeAt.toNat ∧ info = s.opcodeAt

/-- The cause of a fatal fault of instruction `i` after its fetch, with the info it records
(60_exceptions.md R175). -/
def faultCause (s : State) (i : Instr) : FaultKind → Word → Prop
  | .badOperand, info => Argument.source (.bad info) ∈ i.arguments
  | .badDestination, info => Argument.dest (.bad info) ∈ i.arguments
  | .stackUnderflow, info => info = 0 ∧ s.stack = [] ∧ ∃ a, i = .pop a
  | .inputExhausted, info => info = 0 ∧ s.inp.queue = [] ∧ s.inp.closed = true ∧ ∃ a, i = .in_ a
  | .divideByZero, info => info = 0 ∧ ∃ a b c, i = .mod a b c ∧ sourceValue s c = some 0
  | .fetchOutOfRange, _ => False
  | .nonDataValue, info =>
    ∃ r, Argument.source (.reg r) ∈ i.arguments ∧ 32767 < (s.readReg r).toNat ∧ info.toNat = 32768 + r.val
  | .stackOverflow, info =>
    info = 0 ∧ s.stackCapacity = some s.stack.length ∧ ((∃ a, i = .push a) ∨ ∃ a, i = .call a)

/-- The word the image gives cell `k`: its byte pair, the low byte first; 0 beyond its whole words
(70_reset_and_hazards.md R203, R204). -/
def imageCell (image : List Byte) (k : Nat) : Word :=
  match image.drop (2 * k) with
  | lo :: hi :: _ => BitVec.ofNat 16 (lo.toNat + 256 * hi.toNat)
  | _ => 0

/-- The states of a machine's life with this image: boot, then steps and what the environment may do to the
input between them (70_reset_and_hazards.md R202, 10_state.md R35). -/
inductive Reachable (image : List Byte) : State → Prop
  | boot (capacity inp t) : boot capacity inp image = .next t → Reachable image t
  | step (s t) : Reachable image s → step s = .next t → Reachable image t
  | supply (s bs) : Reachable image s → Reachable image (s.supplyInput bs)
  | close (s) : Reachable image s → Reachable image s.closeInput

/-- The instructions run one after the other by `exec` alone, each from the state the one before it left. -/
def execAll : List Instr → State → Result
  | [], s => .next s
  | i :: rest, s =>
    match exec i s with
    | .next t => execAll rest t
    | .fault r => .fault r
    | .refused r => .refused r

end Sys2Proof.Machine
end

