-- ==== Sys2Proof/Certificates/Slice0/Obligations.lean ====
section
/-! DEFINITION. The statements for the provers. The first part is the spec's own pseudocode on raw words, which
`StepIsThePseudocode` compares the machine with. -/

namespace Sys2Proof.Pseudocode

open Sys2Proof.Machine

/-- The two roles of an argument position (30_encoding.md R74). -/
inductive Role where
  | S
  | D
  deriving DecidableEq, Repr

/-- The column "roles" of 30_encoding.md R76, by opcode. -/
def roles : List (List Role) :=
  [[], [.D, .S], [.S], [.D], [.D, .S, .S], [.D, .S, .S], [.S], [.S, .S], [.S, .S]] ++
  [[.D, .S, .S], [.D, .S, .S], [.D, .S, .S], [.D, .S, .S], [.D, .S, .S]] ++
  [[.D, .S], [.D, .S], [.S, .S], [.S], [], [.S], [.D], []]

/-- `Resolve(w)` (40_fetch_decode_step.md R96). -/
def resolve (s : State) (w : Word) : Except FaultEvent Word :=
  if w.toNat ≤ 32767 then .ok w
  else if w.toNat ≤ 32775 then
    if 32767 < (s.readReg (Fin.ofNat 8 (w.toNat - 32768))).toNat then .error ⟨.nonDataValue, w⟩
    else .ok (s.readReg (Fin.ofNat 8 (w.toNat - 32768)))
  else .error ⟨.badOperand, w⟩

/-- `DestIndex(w)` (40_fetch_decode_step.md R97). -/
def destIndex (w : Word) : Except FaultEvent RegIndex :=
  if 32768 ≤ w.toNat ∧ w.toNat ≤ 32775 then .ok (Fin.ofNat 8 (w.toNat - 32768))
  else .error ⟨.badDestination, w⟩

/-- The loop over the arguments in decode order: the destinations and the source values, or the first fault
(40_fetch_decode_step.md R98). -/
def operands (s : State) : List (Role × Word) → Except FaultEvent (List RegIndex × List Word)
  | [] => .ok ([], [])
  | (.S, w) :: rest =>
    match resolve s w with
    | .error e => .error e
    | .ok v =>
      match operands s rest with
      | .error e => .error e
      | .ok (ds, vs) => .ok (ds, v :: vs)
  | (.D, w) :: rest =>
    match destIndex w with
    | .error e => .error e
    | .ok d =>
      match operands s rest with
      | .error e => .error e
      | .ok (ds, vs) => .ok (d :: ds, vs)

/-- `raise` (00_scope.md R9). -/
def raised (s : State) (k : FaultKind) (info : Word) : State := { s with run := .faulted k info }

/-- The execute phase of each opcode, from the rule named in 30_encoding.md R76; `next` is the address of the
next instruction in sequence. The wait of IN is no change of state (43_memory_io.md R158). -/
def perform (s : State) (next : Word) : Nat → List RegIndex → List Word → State
  | 0, _, _ => { s with ip := next, run := .halted .haltOpcode 0 }
  | 1, [d], [vb] => { s with regs := s.regs.set d vb, ip := next }
  | 2, _, [va] =>
    if s.stackCapacity = some s.stack.length then raised s .stackOverflow 0
    else { s with stack := s.stack ++ [va], ip := next }
  | 3, [d], _ =>
    match s.stack.getLast? with
    | none => raised s .stackUnderflow 0
    | some w => { s with regs := s.regs.set d w, stack := s.stack.dropLast, ip := next }
  | 4, [d], [vb, vc] => { s with regs := s.regs.set d (if vb = vc then 1 else 0), ip := next }
  | 5, [d], [vb, vc] => { s with regs := s.regs.set d (if vc.toNat < vb.toNat then 1 else 0), ip := next }
  | 6, _, [va] => { s with ip := va }
  | 7, _, [va, vb] => { s with ip := if va ≠ 0 then vb else next }
  | 8, _, [va, vb] => { s with ip := if va = 0 then vb else next }
  | 9, [d], [vb, vc] => { s with regs := s.regs.set d (BitVec.ofNat 16 ((vb.toNat + vc.toNat) % 32768)), ip := next }
  | 10, [d], [vb, vc] => { s with regs := s.regs.set d (BitVec.ofNat 16 (vb.toNat * vc.toNat % 32768)), ip := next }
  | 11, [d], [vb, vc] =>
    if vc.toNat = 0 then raised s .divideByZero 0
    else { s with regs := s.regs.set d (BitVec.ofNat 16 (vb.toNat % vc.toNat)), ip := next }
  | 12, [d], [vb, vc] => { s with regs := s.regs.set d (vb &&& vc), ip := next }
  | 13, [d], [vb, vc] => { s with regs := s.regs.set d (vb ||| vc), ip := next }
  | 14, [d], [vb] => { s with regs := s.regs.set d (~~~vb &&& 0x7FFF), ip := next }
  | 15, [d], [vb] => { s with regs := s.regs.set d (s.mem.read vb.toNat), ip := next }
  | 16, _, [va, vb] => { s with mem := s.mem.write va.toNat vb, ip := next }
  | 17, _, [va] =>
    if s.stackCapacity = some s.stack.length then raised s .stackOverflow 0
    else { s with stack := s.stack ++ [next], ip := va }
  | 18, _, _ =>
    match s.stack.getLast? with
    | none => { s with ip := next, run := .halted .emptyStackReturn 0 }
    | some w => { s with stack := s.stack.dropLast, ip := w }
  | 19, _, [va] => { s with out := s.out ++ [va.setWidth 8], ip := next }
  | 20, [d], _ =>
    match s.inp.queue with
    | v :: rest => { s with regs := s.regs.set d (v.setWidth 16), inp := { s.inp with queue := rest }, ip := next }
    | [] => if s.inp.closed then raised s .inputExhausted 0 else s
  | 21, _, _ => { s with ip := next }
  | _, _, _ => s

/-- `Step(S)` (40_fetch_decode_step.md R102). -/
def step (s : State) : State :=
  let a0 := s.ip.toNat
  if 32767 < a0 then raised s .fetchOutOfRange s.ip
  else
    let w0 := s.mem.read a0
    if 21 < w0.toNat then { s with ip := BitVec.ofNat 16 (a0 + 1), run := .halted .invalidOpcode w0 }
    else
      let rs := roles.getD w0.toNat []
      let places := (List.range rs.length).map (a0 + 1 + ·)
      match places.find? (fun a => decide (32767 < a)) with
      | some a => raised s .fetchOutOfRange (BitVec.ofNat 16 a)
      | none =>
        match operands s (rs.zip (places.map s.mem.read)) with
        | .error e => raised s e.kind e.info
        | .ok (ds, vs) => perform s (BitVec.ofNat 16 (a0 + 1 + rs.length)) w0.toNat ds vs

end Sys2Proof.Pseudocode

open Sys2Proof Sys2Proof.Machine

/-! Encoding. -/

/-- Every well-formed instruction, with every operand, is read back from its words, whatever follows them. -/
def Obligations.EncodeThenDecodeGivesTheInstruction : Prop :=
  ∀ (i : Instr) (rest : List Word), i.wellFormed = true → decode (encode i ++ rest) = .ok (i, rest)

/-- What the decoder accepts is well-formed and its words are the ones read: no bit is dropped (R79). -/
def Obligations.DecodeThenEncodeGivesTheWords : Prop :=
  ∀ (ws rest : List Word) (i : Instr), decode ws = .ok (i, rest) → i.wellFormed = true ∧ encode i ++ rest = ws

/-- The opcode word alone decides how many words the instruction has (R72, R94); too few are rejected by name. -/
def Obligations.OpcodeWordDecidesTheLength : Prop :=
  ∀ (w0 : Word) (rest : List Word),
    (argc w0 ≤ rest.length →
      ∃ i, decode (w0 :: rest) = .ok (i, rest.drop (argc w0)) ∧ i.opcodeWord = w0 ∧
        i.arguments.length = argc w0) ∧
    (rest.length < argc w0 → decode (w0 :: rest) = .error (.missingArgument w0 rest.length))

/-- Words written out from the opcode table of R76, and the operand classes of R73. -/
def Obligations.SampleWordsDecode : Prop :=
  decode [0x0000] = .ok (.halt, []) ∧
  decode [0x0001, 0x8000, 0x0004] = .ok (.set (.reg 0) (.lit 4), []) ∧
  decode [0x0002, 0x7FFF] = .ok (.push (.lit 32767), []) ∧
  decode [0x0003, 0x8007] = .ok (.pop (.reg 7), []) ∧
  decode [0x0009, 0x8000, 0x8001, 0x7FFF] = .ok (.add (.reg 0) (.reg 1) (.lit 32767), []) ∧
  decode [0x0007, 0x8002, 0x0032] = .ok (.jt (.reg 2) (.lit 50), []) ∧
  decode [0x0010, 0x8000, 0x8001] = .ok (.wmem (.reg 0) (.reg 1), []) ∧
  decode [0x0011, 0x0064] = .ok (.call (.lit 100), []) ∧
  decode [0x0014, 0x8000] = .ok (.in_ (.reg 0), []) ∧
  decode [0x0001, 0x0004, 0x8008] = .ok (.set (.bad 4) (.bad 32776), []) ∧
  decode [0x0016] = .ok (.invalid 22, []) ∧
  decode [0x8000, 0x0001] = .ok (.invalid 32768, [0x0001])

/-- R78: every opcode word from 22 on, and no other, is the Invalid encoding; it takes no argument word, and
it is a graceful halt that keeps the word. -/
def Obligations.OpcodesAbove21AreTheInvalidEncoding : Prop :=
  ∀ (w0 : Word) (rest : List Word),
    (22 ≤ w0.toNat → decode (w0 :: rest) = .ok (.invalid w0, rest)) ∧
    (∀ w r, decode (w0 :: rest) = .ok (.invalid w, r) → w = w0 ∧ r = rest ∧ 22 ≤ w0.toNat) ∧
    ∀ s : State, exec (.invalid w0) s = .next { s with ip := s.ip + 1, run := .halted .invalidOpcode w0 }

/-! The step. -/

/-- Where words from `ip` on decode, the step is `exec` of the instruction. -/
def Obligations.StepRunsTheDecodedInstruction : Prop :=
  ∀ (s : State) (ws rest : List Word) (i : Instr), s.run = .running → s.ip.toNat + ws.length ≤ 32768 →
    (∀ k (h : k < ws.length), s.mem.read (s.ip.toNat + k) = ws[k]) → decode ws = .ok (i, rest) →
    step s = exec i s

/-- A fetch beyond address 32767, of the opcode word or of an argument word, is the fault that records the
address (R91). -/
def Obligations.FetchBeyondMemoryFaults : Prop :=
  (∀ s : State, s.run = .running → 32767 < s.ip.toNat →
    step s = .next { s with run := .faulted .fetchOutOfRange s.ip }) ∧
  (∀ s : State, s.run = .running → s.ip.toNat ≤ 32767 → 32767 < s.ip.toNat + argc s.opcodeAt →
    step s = .next { s with run := .faulted .fetchOutOfRange 32768 })

/-- The machine's step is the spec's own pseudocode on raw words (R102). The model's own choice in it: a
waiting IN is a step that changes nothing (log entry 3). -/
def Obligations.StepIsThePseudocode : Prop :=
  ∀ s : State, s.run = .running → step s = .next (Pseudocode.step s)

/-- A machine that is not running changes no state for ever (R33). The model's own choice: its steps answer
the same state (log entry 2). -/
def Obligations.MachineNotRunningNeverChanges : Prop :=
  ∀ (s : State) (k : Nat), s.run ≠ .running → core.run k s = .next s

/-- Every step answers a next state: none stops with a host fault or a refusal, and none touches the
parameter `STACK_CAPACITY`. The model's own choices in it: faults and halts are next states (log entry 1), a
machine that is not Running answers the same state (log entry 2), a waiting IN, of which R102 says that its step
has no outcome, answers the same state (log entry 3), and the capacity is a field (log entry 5). -/
def Obligations.EveryStepAnswersANextState : Prop :=
  ∀ s : State, ∃ t, step s = .next t ∧ t.stackCapacity = s.stackCapacity

/-! Invariants. -/

/-- The invariant holds right after reset, from whatever state. -/
def Obligations.ResetMeetsTheInvariant : Prop :=
  State.reset.Inv ∧ ∀ (s : State) (inp : InputChannel), (s.resetFrom inp).Inv

/-- Every step keeps the invariant. -/
def Obligations.StepKeepsTheInvariant : Prop :=
  ∀ s t : State, s.Inv → step s = .next t → t.Inv

/-- A machine booted with any image meets the invariant. -/
def Obligations.BootMeetsTheInvariant : Prop :=
  ∀ (capacity : Option Nat) (inp : InputChannel) (image : List Byte) (t : State),
    boot capacity inp image = .next t → t.Inv

/-- R40, of every reachable state. The clauses on the 8 registers and on resolved values hold by the types of
State and of a resolved value (log entry 8). -/
def Obligations.ReachableStatesKeepTheirBounds : Prop :=
  ∀ (image : List Byte) (t : State), Reachable image t →
    t.ip.toNat ≤ 32768 ∧ (∀ w ∈ t.stack, w.toNat ≤ 32768) ∧
    (∀ a, t.mem.read a ≠ imageCell image a → (t.mem.read a).toNat ≤ 32767) ∧
    t.regs.toList.length = 8 ∧ (∀ c ∈ t.mem.cells, c.1 < 32768) ∧
    ∀ o v, resolve t o = .ok v → v.word.toNat ≤ 32767

/-! Operands, faults and halts. -/

/-- R98: the first argument in decode order that raises ends the instruction, whatever its effect would do
with the later ones, and nothing but `RUN` changes. -/
def Obligations.FirstOperandFaultEndsTheInstruction : Prop :=
  ∀ (s : State) (i : Instr) (e : FaultEvent), firstFault s i = some e →
    exec i s = .next { s with run := .faulted e.kind e.info }

/-- R96, on raw words. -/
def Obligations.ResolveFollowsTheOperandClass : Prop :=
  ∀ (s : State) (w : Word),
    (w.toNat ≤ 32767 → ∃ v, resolve s (operandOf w) = .ok v ∧ v.word = w) ∧
    (∀ r : RegIndex, w.toNat = 32768 + r.val →
      ((s.readReg r).toNat ≤ 32767 → ∃ v, resolve s (operandOf w) = .ok v ∧ v.word = s.readReg r) ∧
      (32767 < (s.readReg r).toNat → resolve s (operandOf w) = .error ⟨.nonDataValue, w⟩) ∧
      ∀ x : Word, x.toNat ≤ 32767 → ∃ v, resolve (s.writeReg r x) (operandOf w) = .ok v ∧ v.word = x) ∧
    (32775 < w.toNat → resolve s (operandOf w) = .error ⟨.badOperand, w⟩)

/-- R97, on raw words. -/
def Obligations.DestIndexFollowsTheRawWord : Prop :=
  ∀ w : Word,
    (∀ r : RegIndex, w.toNat = 32768 + r.val → destIndex (destinationOf w) = .ok r) ∧
    (w.toNat < 32768 ∨ 32775 < w.toNat → destIndex (destinationOf w) = .error ⟨.badDestination, w⟩)

/-- R176: a step that takes a fatal fault changes `RUN` and nothing else. -/
def Obligations.FatalFaultChangesRunAlone : Prop :=
  ∀ (s t : State) (k : FaultKind) (info : Word), s.run = .running → step s = .next t →
    t.run = .faulted k info → t = { s with run := .faulted k info }

/-- Every fatal fault of an instruction comes from its cause in R175 and records that row's info. -/
def Obligations.FatalFaultsComeFromTheirCauses : Prop :=
  ∀ (s t : State) (i : Instr) (k : FaultKind) (info : Word), s.run = .running → exec i s = .next t →
    t.run = .faulted k info → faultCause s i k info

/-- R171: a running machine halts gracefully exactly for its three causes, and then `ip` and `RUN` change and
nothing else; the codes are those of the table. -/
def Obligations.GracefulHaltsComeFromTheirCauses : Prop :=
  (∀ (s : State) (r : HaltReason) (info : Word), s.run = .running →
    ((s.ip.toNat ≤ 32767 ∧ haltCause s r info) ↔ ∃ t, step s = .next t ∧ t.run = .halted r info) ∧
    ∀ t, step s = .next t → t.run = .halted r info →
      t = { s with ip := s.ip + 1, run := .halted r info }) ∧
  HaltReason.haltOpcode.code = 0 ∧ HaltReason.emptyStackReturn.code = 1 ∧ HaltReason.invalidOpcode.code = 2

/-- The fields of `STATUS` (R34) and the codes of the fault kinds (R175). -/
def Obligations.StatusShowsRun : Prop :=
  (∀ s : State, s.status.extractLsb' 2 2 = 0 ∧ s.status.extractLsb' 8 8 = 0 ∧
    (s.run = .running → s.status = 0) ∧
    (∀ r info, s.run = .halted r info →
      s.status.extractLsb' 0 2 = 1 ∧ s.status.extractLsb' 4 4 = r.code ∧ s.status.extractLsb' 16 16 = info) ∧
    (∀ k info, s.run = .faulted k info →
      s.status.extractLsb' 0 2 = 2 ∧ s.status.extractLsb' 4 4 = k.code ∧ s.status.extractLsb' 16 16 = info)) ∧
  [FaultKind.badOperand, .badDestination, .stackUnderflow, .inputExhausted, .divideByZero, .fetchOutOfRange,
    .nonDataValue, .stackOverflow].map FaultKind.code = [1, 2, 3, 4, 5, 6, 7, 8]

/-! What each instruction does where its operands are legal: it completes, with this result and nothing else
changed. -/

/-- SET (R112). -/
def Obligations.SetWritesItsSource : Prop :=
  ∀ (s : State) (d : RegIndex) (b : Operand) (vb : Nat), sourceValue s b = some vb →
    exec (.set (.reg d) b) s = .next { s with regs := s.regs.set d (BitVec.ofNat 16 vb), ip := s.ip + 3 }

/-- EQ and GT (R113, R114): exactly 1 or 0, unsigned, strictly greater. -/
def Obligations.ComparisonsWriteOneOrZero : Prop :=
  ∀ (s : State) (d : RegIndex) (b c : Operand) (vb vc : Nat), sourceValue s b = some vb →
    sourceValue s c = some vc →
    exec (.eq (.reg d) b c) s =
      .next { s with regs := s.regs.set d (if vb = vc then 1 else 0), ip := s.ip + 4 } ∧
    exec (.gt (.reg d) b c) s =
      .next { s with regs := s.regs.set d (if vc < vb then 1 else 0), ip := s.ip + 4 }

/-- ADD (R115): the exact sum modulo 32768. -/
def Obligations.AddWritesTheSumModulo32768 : Prop :=
  ∀ (s : State) (d : RegIndex) (b c : Operand) (vb vc : Nat), sourceValue s b = some vb →
    sourceValue s c = some vc →
    exec (.add (.reg d) b c) s =
      .next { s with regs := s.regs.set d (BitVec.ofNat 16 ((vb + vc) % 32768)), ip := s.ip + 4 }

/-- MULT (R116): the exact product modulo 32768. -/
def Obligations.MultWritesTheProductModulo32768 : Prop :=
  ∀ (s : State) (d : RegIndex) (b c : Operand) (vb vc : Nat), sourceValue s b = some vb →
    sourceValue s c = some vc →
    exec (.mult (.reg d) b c) s =
      .next { s with regs := s.regs.set d (BitVec.ofNat 16 (vb * vc % 32768)), ip := s.ip + 4 }

/-- MOD (R117): the remainder, or the fault of a zero divisor. -/
def Obligations.ModWritesTheRemainderOrFaults : Prop :=
  ∀ (s : State) (d : RegIndex) (b c : Operand) (vb vc : Nat), sourceValue s b = some vb →
    sourceValue s c = some vc →
    (vc ≠ 0 → exec (.mod (.reg d) b c) s =
      .next { s with regs := s.regs.set d (BitVec.ofNat 16 (vb % vc)), ip := s.ip + 4 }) ∧
    (vc = 0 → exec (.mod (.reg d) b c) s = .next { s with run := .faulted .divideByZero 0 })

/-- AND, OR (R118, R119) bit by bit, and NOT (R120), which is 32767 less the operand. -/
def Obligations.BitwiseInstructionsWriteTheirResult : Prop :=
  ∀ (s : State) (d : RegIndex) (b c : Operand) (vb vc : Nat), sourceValue s b = some vb →
    sourceValue s c = some vc →
    exec (.and_ (.reg d) b c) s =
      .next { s with regs := s.regs.set d (BitVec.ofNat 16 (vb &&& vc)), ip := s.ip + 4 } ∧
    exec (.or_ (.reg d) b c) s =
      .next { s with regs := s.regs.set d (BitVec.ofNat 16 (vb ||| vc)), ip := s.ip + 4 } ∧
    exec (.not_ (.reg d) b) s =
      .next { s with regs := s.regs.set d (BitVec.ofNat 16 (32767 - vb)), ip := s.ip + 3 }

/-- PUSH (R131): the resolved value on top, or `StackOverflow` on a full finite stack. -/
def Obligations.PushAppendsItsSource : Prop :=
  ∀ (s : State) (a : Operand) (va : Nat), sourceValue s a = some va →
    (s.stackCapacity ≠ some s.stack.length →
      exec (.push a) s = .next { s with stack := s.stack ++ [BitVec.ofNat 16 va], ip := s.ip + 2 }) ∧
    (s.stackCapacity = some s.stack.length →
      exec (.push a) s = .next { s with run := .faulted .stackOverflow 0 })

/-- POP (R133): all of the top entry into the register, or `StackUnderflow`. -/
def Obligations.PopMovesTheTopEntry : Prop :=
  ∀ (s : State) (d : RegIndex),
    (∀ rest w, s.stack = rest ++ [w] →
      exec (.pop (.reg d)) s = .next { s with regs := s.regs.set d w, stack := rest, ip := s.ip + 2 }) ∧
    (s.stack = [] → exec (.pop (.reg d)) s = .next { s with run := .faulted .stackUnderflow 0 })

/-- CALL (R137): the address after the argument on top, `ip` at the target. -/
def Obligations.CallPushesTheReturnAddress : Prop :=
  ∀ (s : State) (a : Operand) (va : Nat), sourceValue s a = some va →
    (s.stackCapacity ≠ some s.stack.length →
      exec (.call a) s = .next { s with stack := s.stack ++ [s.ip + 2], ip := BitVec.ofNat 16 va }) ∧
    (s.stackCapacity = some s.stack.length →
      exec (.call a) s = .next { s with run := .faulted .stackOverflow 0 })

/-- RET (R139): the top entry into `ip`, or the graceful halt of an empty stack. -/
def Obligations.RetPopsIntoIpOrHalts : Prop :=
  ∀ s : State,
    (∀ rest w, s.stack = rest ++ [w] → exec .ret s = .next { s with stack := rest, ip := w }) ∧
    (s.stack = [] → exec .ret s = .next { s with ip := s.ip + 1, run := .halted .emptyStackReturn 0 })

/-- JMP, JT and JF (R141 to R143). -/
def Obligations.JumpsSetIp : Prop :=
  ∀ (s : State) (a b : Operand) (va vb : Nat), sourceValue s a = some va → sourceValue s b = some vb →
    exec (.jmp a) s = .next { s with ip := BitVec.ofNat 16 va } ∧
    exec (.jt a b) s = .next { s with ip := if va ≠ 0 then BitVec.ofNat 16 vb else s.ip + 3 } ∧
    exec (.jf a b) s = .next { s with ip := if va = 0 then BitVec.ofNat 16 vb else s.ip + 3 }

/-- RMEM (R151): all 16 bits of the cell the resolved source addresses. -/
def Obligations.RmemCopiesTheCell : Prop :=
  ∀ (s : State) (d : RegIndex) (b : Operand) (vb : Nat), sourceValue s b = some vb →
    exec (.rmem (.reg d) b) s = .next { s with regs := s.regs.set d (s.mem.read vb), ip := s.ip + 3 }

/-- WMEM (R153): the cell the resolved first source addresses takes the second; every other cell reads as
before. -/
def Obligations.WmemStoresOneCell : Prop :=
  ∀ (s : State) (a b : Operand) (va vb : Nat), s.mem.wf = true → sourceValue s a = some va →
    sourceValue s b = some vb →
    ∃ t, exec (.wmem a b) s = .next t ∧ t = { s with mem := t.mem, ip := s.ip + 3 } ∧
      (∀ x, t.mem.read x = if x = va then BitVec.ofNat 16 vb else s.mem.read x) ∧ t.mem.wf = true

/-- OUT (R155): the low 8 bits appended to the output. -/
def Obligations.OutEmitsTheLowByte : Prop :=
  ∀ (s : State) (a : Operand) (va : Nat), sourceValue s a = some va →
    exec (.out a) s = .next { s with out := s.out ++ [BitVec.ofNat 8 (va % 256)], ip := s.ip + 2 }

/-- IN (R157, R158): one byte consumed and zero-extended, the fault at the end of the input, or the wait. The
model's own choice: the wait is a step that changes nothing (log entry 3). -/
def Obligations.InReadsOneByte : Prop :=
  ∀ (s : State) (d : RegIndex),
    (∀ b rest, s.inp.queue = b :: rest →
      exec (.in_ (.reg d)) s =
        .next { s with regs := s.regs.set d (BitVec.ofNat 16 b.toNat), inp := { s.inp with queue := rest },
                       ip := s.ip + 2 }) ∧
    (s.inp.queue = [] → s.inp.closed = true →
      exec (.in_ (.reg d)) s = .next { s with run := .faulted .inputExhausted 0 }) ∧
    (s.inp.queue = [] → s.inp.closed = false → exec (.in_ (.reg d)) s = .next s)

/-- HALT (R100) and NOOP (R159). -/
def Obligations.HaltAndNoopMoveIp : Prop :=
  ∀ s : State,
    exec .halt s = .next { s with ip := s.ip + 1, run := .halted .haltOpcode 0 } ∧
    exec .noop s = .next { s with ip := s.ip + 1 }

/-! Rules about the whole machine: what a step can change, and by which instruction. -/

/-- Memory changes only by a WMEM, in the one cell its first source addresses, to the value of its second. -/
def Obligations.OnlyWmemChangesMemory : Prop :=
  ∀ (s t : State) (a : Nat), s.mem.wf = true → step s = .next t → t.mem.read a ≠ s.mem.read a →
    s.run = .running ∧ s.opcodeAt = 16 ∧ sourceValue s (operandOf (s.argumentAt 1)) = some a ∧
      ∃ v, sourceValue s (operandOf (s.argumentAt 2)) = some v ∧ t.mem.read a = BitVec.ofNat 16 v

/-- The stack changes by one entry, pushed by PUSH or CALL or popped by POP or RET; a pushed word is at most
32768 (R30). -/
def Obligations.StackChangesByOneEntry : Prop :=
  ∀ s t : State, step s = .next t →
    t.stack = s.stack ∨
    (s.opcodeAt = 2 ∧ ∃ v, sourceValue s (operandOf (s.argumentAt 1)) = some v ∧
      t.stack = s.stack ++ [BitVec.ofNat 16 v]) ∨
    (s.opcodeAt = 17 ∧ s.ip.toNat + 2 ≤ 32768 ∧ t.stack = s.stack ++ [s.ip + 2]) ∨
    ((s.opcodeAt = 3 ∨ s.opcodeAt = 18) ∧ ∃ w, s.stack = t.stack ++ [w])

/-- Only OUT writes the output, by one byte; only IN takes from the input, one byte, and nothing closes or
opens it (R35, R36). -/
def Obligations.ChannelsMoveByOneByte : Prop :=
  ∀ s t : State, step s = .next t →
    (t.out = s.out ∨ s.opcodeAt = 19 ∧ ∃ v, sourceValue s (operandOf (s.argumentAt 1)) = some v ∧
      t.out = s.out ++ [BitVec.ofNat 8 (v % 256)]) ∧
    t.inp.closed = s.inp.closed ∧
    (t.inp.queue = s.inp.queue ∨ s.opcodeAt = 20 ∧ ∃ b, s.inp.queue = b :: t.inp.queue)

/-- A register changes only as the destination of one of the twelve writers (R21), and only RMEM and POP can
leave a non-data word in it (R22). -/
def Obligations.RegistersChangeOnlyAsDestination : Prop :=
  ∀ (s t : State) (r : RegIndex), step s = .next t → t.readReg r ≠ s.readReg r →
    s.run = .running ∧ destinationOf (s.argumentAt 1) = .reg r ∧
    s.opcodeAt.toNat ∈ [1, 3, 4, 5, 9, 10, 11, 12, 13, 14, 15, 20] ∧
    (32767 < (t.readReg r).toNat → s.opcodeAt = 3 ∨ s.opcodeAt = 15)

/-- Where `ip` stands after a step (R27). The model's own choice: a waiting IN is a step that changes nothing
(log entry 3). -/
def Obligations.IpAfterAStep : Prop :=
  ∀ s t : State, s.run = .running → step s = .next t →
    (∀ k info, t.run = .faulted k info → t.ip = s.ip) ∧
    (∀ r info, t.run = .halted r info → t.ip.toNat = s.ip.toNat + 1) ∧
    (t.run = .running →
      (s.opcodeAt.toNat ∉ [6, 7, 8, 17, 18, 20] → t.ip.toNat = s.ip.toNat + 1 + argc s.opcodeAt) ∧
      (s.opcodeAt = 20 → t.ip.toNat = s.ip.toNat + 2 ∨ t = s) ∧
      (s.opcodeAt = 6 ∨ s.opcodeAt = 17 →
        sourceValue s (operandOf (s.argumentAt 1)) = some t.ip.toNat) ∧
      (s.opcodeAt = 7 ∨ s.opcodeAt = 8 →
        ∃ va vb, sourceValue s (operandOf (s.argumentAt 1)) = some va ∧
          sourceValue s (operandOf (s.argumentAt 2)) = some vb ∧
          t.ip.toNat = if (va = 0 ↔ s.opcodeAt = 8) then vb else s.ip.toNat + 3) ∧
      (s.opcodeAt = 18 → s.stack.getLast? = some t.ip))

/-- The output is never read: with any other output before it, a step emits the same bytes and does the same
(R36). -/
def Obligations.OutputIsNeverRead : Prop :=
  ∀ (s t : State) (o : List Byte), step s = .next t →
    ∃ bs, t.out = s.out ++ bs ∧ step { s with out := o } = .next { t with out := o ++ bs }

/-- On an unbounded stack that is not empty, entries put below it change nothing a step does (R29). -/
def Obligations.StackBelowTheTopIsNeverRead : Prop :=
  ∀ (s t : State) (below : List Word), s.stackCapacity = none → s.stack ≠ [] → step s = .next t →
    step { s with stack := below ++ s.stack } = .next { t with stack := below ++ t.stack }

/-- A step of any instruction but IN is the same whatever the input channel holds (R35). -/
def Obligations.OnlyInReadsTheInput : Prop :=
  ∀ (s t : State) (c : InputChannel), s.opcodeAt ≠ 20 → step s = .next t →
    t.inp = s.inp ∧ step { s with inp := c } = .next { t with inp := c }

/-! Laws over several instructions. -/

/-- R138: a CALL whose target holds RET comes back to the address after the CALL, the stack as before. -/
def Obligations.CallThenRetReturns : Prop :=
  ∀ (s : State) (v : Nat), s.run = .running → s.ip.toNat ≤ 32766 → s.opcodeAt = 17 →
    sourceValue s (operandOf (s.argumentAt 1)) = some v → s.mem.read v = 18 →
    s.stackCapacity ≠ some s.stack.length → core.run 2 s = .next { s with ip := s.ip + 2 }

/-- R132: values pushed and then popped into distinct registers come back in reverse order, and the stack is
as before. -/
def Obligations.PushesThenPopsReverse : Prop :=
  ∀ (s : State) (ops : List Operand) (vs : List Nat) (rs : List RegIndex), s.stackCapacity = none →
    ops.map (sourceValue s) = vs.map some → rs.Nodup → rs.length = vs.length →
    ∃ t, execAll (ops.map Instr.push ++ rs.map fun r => Instr.pop (.reg r)) s = .next t ∧
      t.stack = s.stack ∧ rs.map t.readReg = vs.reverse.map (BitVec.ofNat 16) ∧
      ∀ r, r ∉ rs → t.readReg r = s.readReg r

/-- NOT applied twice returns the value (R120, 95_test_vectors.md E4), through any two registers. -/
def Obligations.NotTwiceRestoresTheValue : Prop :=
  ∀ (s : State) (d e : RegIndex) (b : Operand) (v : Nat), sourceValue s b = some v →
    ∃ t, execAll [.not_ (.reg d) b, .not_ (.reg e) (.reg d)] s = .next t ∧
      t.readReg e = BitVec.ofNat 16 v ∧ ∀ r, r ≠ d → r ≠ e → t.readReg r = s.readReg r

/-- A WMEM over one of its own words completes as the WMEM it was, and a WMEM over the next instruction is
seen by the next fetch (R65): here the word stored there is an invalid opcode, and the machine halts on it. -/
def Obligations.StoreIsSeenByTheNextFetch : Prop :=
  ∀ (s : State) (va vb : Nat), s.mem.wf = true → s.run = .running → s.ip.toNat ≤ 32764 → s.opcodeAt = 16 →
    sourceValue s (operandOf (s.argumentAt 1)) = some va → sourceValue s (operandOf (s.argumentAt 2)) = some vb →
    step s = .next { s with mem := s.mem.write va (BitVec.ofNat 16 vb), ip := s.ip + 3 } ∧
    (va = s.ip.toNat + 3 → 22 ≤ vb →
      core.run 2 s = .next { s with mem := s.mem.write va (BitVec.ofNat 16 vb), ip := s.ip + 4,
                                    run := .halted .invalidOpcode (BitVec.ofNat 16 vb) })

/-! The environment. -/

/-- A waiting IN completes with the first byte supplied, and faults when the input is closed instead (R158,
R190). The model's own choice: the wait is a step that changes nothing (log entry 3). -/
def Obligations.WaitingInEndsByTheEnvironment : Prop :=
  ∀ (s : State) (d : RegIndex) (b : Byte) (bs : List Byte), s.inp = ⟨[], false⟩ →
    exec (.in_ (.reg d)) s = .next s ∧
    exec (.in_ (.reg d)) (s.supplyInput (b :: bs)) =
      .next { s with regs := s.regs.set d (BitVec.ofNat 16 b.toNat), inp := ⟨bs, false⟩, ip := s.ip + 2 } ∧
    exec (.in_ (.reg d)) s.closeInput =
      .next { s with inp := ⟨[], true⟩, run := .faulted .inputExhausted 0 }

/-- R203: the image's byte pairs stand in memory from cell 0 on, the low byte first, the cells after them hold
0, and nothing else differs from reset. -/
def Obligations.BootLoadsLittleEndianPairs : Prop :=
  ∀ (capacity : Option Nat) (inp : InputChannel) (image : List Byte), image.length / 2 ≤ 32768 →
    ∃ t, boot capacity inp image = .next t ∧ t = { State.resetWith capacity inp with mem := t.mem } ∧
      ∀ k, t.mem.read k = imageCell image k

/-- R204: an odd last byte affects nothing. -/
def Obligations.OddTrailingByteIsDropped : Prop :=
  ∀ (capacity : Option Nat) (inp : InputChannel) (image : List Byte) (b : Byte), image.length % 2 = 0 →
    boot capacity inp (image ++ [b]) = boot capacity inp image

/-- An image of more than 32768 whole words has no run (R205), and there is no load of a machine that is not
just reset (R202). The model's own choice: both are refusals by name (log entry 13). -/
def Obligations.LoadRefusesLongImagesAndReloads : Prop :=
  (∀ (capacity : Option Nat) (inp : InputChannel) (image : List Byte), 32768 < image.length / 2 →
    boot capacity inp image = .refused .imageTooLong) ∧
  (∀ (s : State) (image : List Byte), s ≠ s.resetFrom s.inp → load image s = .refused .loadNotAtReset)

/-- R39: the reset values, from any state; a cell beyond the image still reads 0 after the load, and a word 0
decodes as HALT. -/
def Obligations.ResetGivesTheConstructedState : Prop :=
  (∀ (s : State) (inp : InputChannel),
    (∀ r, (s.resetFrom inp).readReg r = 0) ∧ (∀ a, (s.resetFrom inp).mem.read a = 0) ∧
    (s.resetFrom inp).stack = [] ∧ (s.resetFrom inp).ip = 0 ∧ (s.resetFrom inp).run = .running ∧
    (s.resetFrom inp).status = 0 ∧ (s.resetFrom inp).out = [] ∧ (s.resetFrom inp).inp = inp) ∧
  (∀ (capacity : Option Nat) (inp : InputChannel) (image : List Byte) (t : State) (a : Nat),
    boot capacity inp image = .next t → image.length / 2 ≤ a → t.mem.read a = 0) ∧
  ∀ rest : List Word, decode (0 :: rest) = .ok (.halt, rest)
end

