-- ==== Sys2Proof/Laws/Decode.lean ====
section
/-! SUPPORT. Argument words and their classes go back and forth; what the row decoders answer; the argument
counts. -/

namespace Sys2Proof

@[simp] theorem DataValue.toNat_word (v : DataValue) : (DataValue.word v).toNat = v.toNat := by
  simp only [DataValue.word, BitVec.toNat_setWidth]
  exact Nat.mod_eq_of_lt (by omega)

/-- The word of a data value, by its number. -/
theorem DataValue.word_eq (v : DataValue) : DataValue.word v = BitVec.ofNat 16 v.toNat := by
  apply BitVec.eq_of_toNat_eq
  rw [DataValue.toNat_word, BitVec.toNat_ofNat]
  omega

/-- Data values are equal exactly where their words are. -/
@[simp] theorem DataValue.word_inj {v u : DataValue} : DataValue.word v = DataValue.word u ↔ v = u := by
  refine ⟨fun h => BitVec.eq_of_toNat_eq ?_, fun h => h ▸ rfl⟩
  rw [← DataValue.toNat_word v, ← DataValue.toNat_word u, h]

/-- The zero that JT and JF test for. -/
@[simp] theorem DataValue.word_eq_zero {v : DataValue} : DataValue.word v = 0#16 ↔ v = 0#15 :=
  DataValue.word_inj (u := 0#15)

/-- A word below 32768 is the data value it holds. -/
theorem DataValue.word_setWidth {w : Word} (h : w.toNat < 32768) : DataValue.word (w.setWidth 15) = w := by
  apply BitVec.eq_of_toNat_eq
  simp only [DataValue.word, BitVec.toNat_setWidth]
  omega

theorem DataValue.setWidth_word (v : DataValue) : (DataValue.word v).setWidth 15 = v := by
  apply BitVec.eq_of_toNat_eq
  simp only [DataValue.word, BitVec.toNat_setWidth]
  omega

@[simp] theorem regWord_toNat (r : RegIndex) : (regWord r).toNat = 32768 + r.val := by
  simp only [regWord, Config.regBase, BitVec.toNat_ofNat]
  omega

/-- The index a register reference names is the one it was made from. -/
theorem regWord_ofNat {w : Word} (h : 32768 ≤ w.toNat) (h' : w.toNat ≤ 32775) :
    regWord (Fin.ofNat 8 (w.toNat - 32768)) = w := by
  apply BitVec.eq_of_toNat_eq
  simp only [regWord_toNat, Fin.val_ofNat]
  omega

/-! The three classes of a source word (30_encoding.md R73). -/

theorem operandOf_literal {w : Word} (h : w.toNat < 32768) : operandOf w = .lit (w.setWidth 15) := by
  simp [operandOf, h]

theorem operandOf_register {w : Word} (h : 32768 ≤ w.toNat) (h' : w.toNat ≤ 32775) :
    operandOf w = .reg (Fin.ofNat 8 (w.toNat - 32768)) := by
  have : ¬ w.toNat < 32768 := by omega
  simp only [operandOf, Config.regBase, Config.regTop, this, h', ↓reduceIte]

theorem operandOf_invalid {w : Word} (h : 32775 < w.toNat) : operandOf w = .bad w := by
  have h1 : ¬ w.toNat < 32768 := by omega
  have h2 : ¬ w.toNat ≤ 32775 := by omega
  simp only [operandOf, Config.regBase, Config.regTop, h1, h2, ↓reduceIte]

theorem destinationOf_register {w : Word} (h : 32768 ≤ w.toNat) (h' : w.toNat ≤ 32775) :
    destinationOf w = .reg (Fin.ofNat 8 (w.toNat - 32768)) := by
  simp only [destinationOf, Config.regBase, Config.regTop, h, h', and_self, ↓reduceIte]

theorem destinationOf_other {w : Word} (h : w.toNat < 32768 ∨ 32775 < w.toNat) :
    destinationOf w = .bad w := by
  have : ¬ (32768 ≤ w.toNat ∧ w.toNat ≤ 32775) := by omega
  simp only [destinationOf, Config.regBase, Config.regTop, this, ↓reduceIte]

@[simp] theorem operandOf_regWord (r : RegIndex) : operandOf (regWord r) = .reg r := by
  rw [operandOf_register (by rw [regWord_toNat]; omega) (by rw [regWord_toNat]; omega)]
  exact congrArg Operand.reg (Fin.ext (by simp only [regWord_toNat, Fin.val_ofNat]; omega))

@[simp] theorem destinationOf_regWord (r : RegIndex) : destinationOf (regWord r) = .reg r := by
  rw [destinationOf_register (by rw [regWord_toNat]; omega) (by rw [regWord_toNat]; omega)]
  exact congrArg Destination.reg (Fin.ext (by simp only [regWord_toNat, Fin.val_ofNat]; omega))

/-- A well-formed source is read back from its word. -/
theorem operandOf_word {o : Operand} (h : o.wellFormed = true) : operandOf o.word = o := by
  cases o with
  | lit v =>
    show operandOf (DataValue.word v) = _
    rw [operandOf_literal (by simp; omega), DataValue.setWidth_word]
  | reg r => exact operandOf_regWord r
  | bad w => exact operandOf_invalid (of_decide_eq_true h)

/-- A well-formed destination is read back from its word. -/
theorem destinationOf_word {d : Destination} (h : d.wellFormed = true) : destinationOf d.word = d := by
  cases d with
  | reg r => exact destinationOf_regWord r
  | bad w => exact destinationOf_other (of_decide_eq_true h)

/-- Every word has one class and no bit of it is dropped (30_encoding.md R79). -/
@[simp] theorem word_operandOf (w : Word) : (operandOf w).word = w := by
  rcases Nat.lt_or_ge w.toNat 32768 with h | h
  · rw [operandOf_literal h]
    exact DataValue.word_setWidth h
  · rcases Nat.lt_or_ge 32775 w.toNat with h' | h'
    · rw [operandOf_invalid h']; rfl
    · rw [operandOf_register h h']
      exact regWord_ofNat h h'

@[simp] theorem word_destinationOf (w : Word) : (destinationOf w).word = w := by
  by_cases h : 32768 ≤ w.toNat ∧ w.toNat ≤ 32775
  · rw [destinationOf_register h.1 h.2]
    exact regWord_ofNat h.1 h.2
  · rw [destinationOf_other (by omega)]; rfl

@[simp] theorem operandOf_wellFormed (w : Word) : (operandOf w).wellFormed = true := by
  rcases Nat.lt_or_ge w.toNat 32768 with h | h
  · rw [operandOf_literal h]; rfl
  · rcases Nat.lt_or_ge 32775 w.toNat with h' | h'
    · rw [operandOf_invalid h']; exact decide_eq_true h'
    · rw [operandOf_register h h']; rfl

@[simp] theorem destinationOf_wellFormed (w : Word) : (destinationOf w).wellFormed = true := by
  by_cases h : 32768 ≤ w.toNat ∧ w.toNat ≤ 32775
  · rw [destinationOf_register h.1 h.2]; rfl
  · rw [destinationOf_other (by omega)]
    exact decide_eq_true (by simp only [Config.regBase, Config.regTop]; omega)

/-! What the row decoders answer. -/

theorem decode1_eq_ok {w0 : Word} {mk : Word → Instr} {ws rest : List Word} {i : Instr} :
    decode1 w0 mk ws = .ok (i, rest) ↔ ∃ a, ws = a :: rest ∧ i = mk a := by
  cases ws with
  | nil => simp [decode1]
  | cons a r => simp [decode1]; constructor <;> rintro ⟨rfl, rfl⟩ <;> exact ⟨rfl, rfl⟩

theorem decode2_eq_ok {w0 : Word} {mk : Word → Word → Instr} {ws rest : List Word} {i : Instr} :
    decode2 w0 mk ws = .ok (i, rest) ↔ ∃ a b, ws = a :: b :: rest ∧ i = mk a b := by
  match ws with
  | [] => simp [decode2]
  | [_] => simp [decode2]
  | a :: b :: r => simp [decode2]; constructor <;> rintro ⟨rfl, rfl⟩ <;> exact ⟨rfl, rfl⟩

theorem decode3_eq_ok {w0 : Word} {mk : Word → Word → Word → Instr} {ws rest : List Word} {i : Instr} :
    decode3 w0 mk ws = .ok (i, rest) ↔ ∃ a b c, ws = a :: b :: c :: rest ∧ i = mk a b c := by
  match ws with
  | [] => simp [decode3]
  | [_] => simp [decode3]
  | [_, _] => simp [decode3]
  | a :: b :: c :: r => simp [decode3]; constructor <;> rintro ⟨rfl, rfl⟩ <;> exact ⟨rfl, rfl⟩

theorem decode1_of_length {w0 : Word} {mk : Word → Instr} {ws : List Word} (h : ws.length = 1) :
    ∃ i, decode1 w0 mk ws = .ok (i, []) := by
  match ws, h with
  | [a], _ => exact ⟨mk a, rfl⟩

theorem decode2_of_length {w0 : Word} {mk : Word → Word → Instr} {ws : List Word} (h : ws.length = 2) :
    ∃ i, decode2 w0 mk ws = .ok (i, []) := by
  match ws, h with
  | [a, b], _ => exact ⟨mk a b, rfl⟩

theorem decode3_of_length {w0 : Word} {mk : Word → Word → Word → Instr} {ws : List Word}
    (h : ws.length = 3) : ∃ i, decode3 w0 mk ws = .ok (i, []) := by
  match ws, h with
  | [a, b, c], _ => exact ⟨mk a b c, rfl⟩

/-! Argument counts (40_fetch_decode_step.md R93, R94). -/

theorem argc_le (w0 : Word) : argc w0 ≤ 3 := by
  unfold argc argCounts
  rcases Nat.lt_or_ge w0.toNat 22 with h | h
  · interval_cases w0.toNat <;> decide
  · rw [List.getD_eq_default _ _ (by simpa using h)]
    exact Nat.zero_le 3

theorem argc_invalid {w0 : Word} (h : 22 ≤ w0.toNat) : argc w0 = 0 := by
  unfold argc argCounts
  exact List.getD_eq_default _ _ (by simpa using h)

/-- An opcode word above 21 is the Invalid encoding whatever follows it (30_encoding.md R78). -/
theorem decode_invalid {w0 : Word} (h : 22 ≤ w0.toNat) (rest : List Word) :
    decode (w0 :: rest) = .ok (.invalid w0, rest) := by
  simp only [decode]
  split <;> first | rfl | (exfalso; omega)

/-- An opcode word with exactly its argument words is an instruction. -/
theorem decode_of_length {w0 : Word} {args : List Word} (h : args.length = argc w0) :
    ∃ i, decode (w0 :: args) = .ok (i, []) := by
  rcases Nat.lt_or_ge w0.toNat 22 with hw | hw
  · have hc : argc w0 = argCounts.getD w0.toNat 0 := rfl
    rw [hc] at h
    simp only [decode, decodeDSS, decodeDS, decodeSS, decodeD, decodeS]
    generalize w0.toNat = n at hw h
    interval_cases n <;>
      first
      | exact decode1_of_length h
      | exact decode2_of_length h
      | exact decode3_of_length h
      | (obtain rfl := List.length_eq_zero_iff.1 h; exact ⟨_, rfl⟩)
  · rw [argc_invalid hw] at h
    rw [decode_invalid hw, List.length_eq_zero_iff.1 h]
    exact ⟨_, rfl⟩

end Sys2Proof
end

