-- ==== Sys2Proof/Laws/Memory.lean ====
section
/-! SUPPORT. Memory: a read after a write, and that every operation keeps the canonical form. -/

namespace Sys2Proof.Machine

theorem cellsWf_cons {lo a : Nat} {w : Word} {rest : List (Nat × Word)} :
    cellsWf lo ((a, w) :: rest) = true ↔
      lo ≤ a ∧ a < 32768 ∧ w ≠ Config.emptyCell ∧ cellsWf (a + 1) rest = true := by
  simp only [cellsWf, Bool.and_eq_true, decide_eq_true_eq, and_assoc]

theorem cellsWf_mono {lo lo' : Nat} {cs : List (Nat × Word)} (h : cellsWf lo cs = true) (hle : lo' ≤ lo) :
    cellsWf lo' cs = true := by
  cases cs with
  | nil => rfl
  | cons c rest =>
    obtain ⟨a, w⟩ := c
    rw [cellsWf_cons] at h ⊢
    exact ⟨by omega, h.2⟩

/-- Below the first listed address nothing is listed. -/
theorem lookupCell_below {lo a : Nat} {cs : List (Nat × Word)} (h : cellsWf lo cs = true) (ha : a < lo) :
    lookupCell cs a = Config.emptyCell := by
  induction cs generalizing lo with
  | nil => rfl
  | cons c rest ih =>
    obtain ⟨b, w⟩ := c
    rw [cellsWf_cons] at h
    simp only [lookupCell]
    rw [if_neg (by omega), ih h.2.2.2 (by omega)]

theorem cellsWf_consCell {lo a : Nat} {v : Word} {cs : List (Nat × Word)} (hlo : lo ≤ a) (ha : a < 32768)
    (h : cellsWf (a + 1) cs = true) : cellsWf lo (consCell a v cs) = true := by
  unfold consCell
  split
  · exact cellsWf_mono h (by omega)
  · rename_i hv
    exact cellsWf_cons.2 ⟨hlo, ha, hv, h⟩

theorem cellsWf_insertCell {lo a : Nat} {v : Word} {cs : List (Nat × Word)} (h : cellsWf lo cs = true)
    (hlo : lo ≤ a) (ha : a < 32768) : cellsWf lo (insertCell cs a v) = true := by
  induction cs generalizing lo with
  | nil => exact cellsWf_consCell hlo ha rfl
  | cons c rest ih =>
    obtain ⟨b, w⟩ := c
    rw [cellsWf_cons] at h
    simp only [insertCell]
    split
    · exact cellsWf_consCell hlo ha (cellsWf_cons.2 ⟨by omega, h.2⟩)
    · split
      · rename_i hab
        exact cellsWf_consCell hlo ha (hab ▸ h.2.2.2)
      · exact cellsWf_cons.2 ⟨h.1, h.2.1, h.2.2.1, ih h.2.2.2 (by omega)⟩

theorem lookupCell_consCell {a b : Nat} {v : Word} {cs : List (Nat × Word)} (h : cellsWf (a + 1) cs = true) :
    lookupCell (consCell a v cs) b = if b = a then v else lookupCell cs b := by
  unfold consCell
  split
  · rename_i hv
    split
    · rename_i hba
      rw [hv, hba, lookupCell_below h (by omega)]
    · rfl
  · rfl

theorem lookupCell_insertCell {lo a b : Nat} {v : Word} {cs : List (Nat × Word)} (h : cellsWf lo cs = true) :
    lookupCell (insertCell cs a v) b = if b = a then v else lookupCell cs b := by
  induction cs generalizing lo with
  | nil => exact lookupCell_consCell rfl
  | cons c rest ih =>
    obtain ⟨x, w⟩ := c
    rw [cellsWf_cons] at h
    simp only [insertCell]
    split
    · exact lookupCell_consCell (cellsWf_cons.2 ⟨by omega, h.2⟩)
    · split
      · rename_i hax
        rw [lookupCell_consCell (hax ▸ h.2.2.2)]
        simp only [lookupCell]
        split
        · rfl
        · rw [if_neg (by omega)]
      · simp only [lookupCell]
        split
        · rw [if_neg (by omega)]
        · exact ih h.2.2.2

namespace Memory

/-- No cell lies beyond address 32767 (10_state.md R23). -/
theorem read_beyond {m : Memory} (h : m.wf = true) {a : Nat} (ha : 32768 ≤ a) : m.read a = 0 := by
  have key : ∀ (cs : List (Nat × Word)) (lo : Nat), cellsWf lo cs = true → lookupCell cs a = 0 := by
    intro cs
    induction cs with
    | nil => intro _ _; rfl
    | cons c rest ih =>
      intro lo hw
      obtain ⟨b, w⟩ := c
      rw [cellsWf_cons] at hw
      simp only [lookupCell]
      rw [if_neg (by omega), ih _ hw.2.2.2]
  exact key _ _ h

/-- A write keeps the canonical form. -/
theorem wf_write {m : Memory} (h : m.wf = true) (a : Nat) (v : Word) : (m.write a v).wf = true := by
  unfold write
  split
  · rename_i ha
    exact cellsWf_insertCell h (by omega) (by simpa using ha)
  · exact h

/-- `MemWrite` sets the one cell (20_memory.md R53). -/
theorem read_write {m : Memory} (h : m.wf = true) {a : Nat} (ha : a < 32768) (v : Word) (b : Nat) :
    (m.write a v).read b = if b = a then v else m.read b := by
  simp only [write, read, Config.memWords, ha, ↓reduceIte]
  exact lookupCell_insertCell h

theorem read_write_same {m : Memory} (h : m.wf = true) {a : Nat} (ha : a < 32768) (v : Word) :
    (m.write a v).read a = v := by rw [read_write h ha, if_pos rfl]

theorem read_write_ne {m : Memory} (h : m.wf = true) {a b : Nat} (ha : a < 32768) (hb : b ≠ a) (v : Word) :
    (m.write a v).read b = m.read b := by rw [read_write h ha, if_neg hb]

@[simp] theorem wf_empty : (⟨[]⟩ : Memory).wf = true := rfl

@[simp] theorem read_empty (a : Nat) : (⟨[]⟩ : Memory).read a = 0 := rfl

/-- The form is canonical: memories that read alike are equal data. -/
theorem ext_of_read {m m' : Memory} (h : m.wf = true) (h' : m'.wf = true)
    (heq : ∀ a, m.read a = m'.read a) : m = m' := by
  have key : ∀ (cs cs' : List (Nat × Word)) (lo lo' : Nat), cellsWf lo cs = true → cellsWf lo' cs' = true →
      (∀ a, lookupCell cs a = lookupCell cs' a) → cs = cs' := by
    intro cs
    induction cs with
    | nil =>
      intro cs' lo lo' _ hw' he
      cases cs' with
      | nil => rfl
      | cons c' rest' =>
        obtain ⟨b, w⟩ := c'
        rw [cellsWf_cons] at hw'
        have := he b
        simp only [lookupCell, ↓reduceIte] at this
        exact absurd this.symm hw'.2.2.1
    | cons c rest ih =>
      intro cs' lo lo' hw hw' he
      obtain ⟨a, v⟩ := c
      rw [cellsWf_cons] at hw
      cases cs' with
      | nil =>
        have := he a
        simp only [lookupCell, ↓reduceIte] at this
        exact absurd this hw.2.2.1
      | cons c' rest' =>
        obtain ⟨b, w⟩ := c'
        rw [cellsWf_cons] at hw'
        have hab : a = b := by
          rcases Nat.lt_trichotomy a b with hlt | heq' | hgt
          · have := he a
            simp only [lookupCell, ↓reduceIte] at this
            rw [if_neg (by omega), lookupCell_below hw'.2.2.2 (by omega)] at this
            exact absurd this hw.2.2.1
          · exact heq'
          · have := he b
            simp only [lookupCell, ↓reduceIte] at this
            rw [if_neg (by omega), lookupCell_below hw.2.2.2 (by omega)] at this
            exact absurd this.symm hw'.2.2.1
        subst hab
        have hvw : v = w := by simpa [lookupCell] using he a
        subst hvw
        have hrest : rest = rest' := by
          refine ih rest' _ _ hw.2.2.2 hw'.2.2.2 fun x => ?_
          have hx := he x
          simp only [lookupCell] at hx
          split at hx
          · rename_i hxa
            rw [lookupCell_below hw.2.2.2 (by omega), lookupCell_below hw'.2.2.2 (by omega)]
          · exact hx
        rw [hrest]
  obtain ⟨cs⟩ := m
  obtain ⟨cs'⟩ := m'
  rw [key cs cs' 0 0 h h' heq]

end Memory

theorem storeWords_wf {m : Memory} (h : m.wf = true) (a : Nat) (ws : List Word) :
    (storeWords m a ws).wf = true := by
  induction ws generalizing m a with
  | nil => exact h
  | cons w rest ih => exact ih (Memory.wf_write h a w) _

theorem loadBytes_wf {m : Memory} (h : m.wf = true) (k : Nat) (image : List Byte) :
    (loadBytes m k image).wf = true := by
  induction image using List.twoStepInduction generalizing m k with
  | nil => exact h
  | singleton b => exact h
  | cons_cons lo hi rest ih _ => exact ih (Memory.wf_write h k _) _

/-- The memory of the machine right after reset is in canonical form. -/
theorem reset_mem_wf : State.reset.mem.wf = true := rfl

end Sys2Proof.Machine
end

