-- ==== Sys2Proof/Laws/State.lean ====
section
/-! SUPPORT. What each update of State does to each field, one lemma per field per update, so that no proof
unfolds a record update. -/

namespace Sys2Proof.Machine.State

@[simp] theorem writeReg_regs (s : State) (r : RegIndex) (v : Word) : (s.writeReg r v).regs = s.regs.set r v := rfl
@[simp] theorem writeReg_mem (s : State) (r : RegIndex) (v : Word) : (s.writeReg r v).mem = s.mem := rfl
@[simp] theorem writeReg_stack (s : State) (r : RegIndex) (v : Word) : (s.writeReg r v).stack = s.stack := rfl
@[simp] theorem writeReg_ip (s : State) (r : RegIndex) (v : Word) : (s.writeReg r v).ip = s.ip := rfl
@[simp] theorem writeReg_run (s : State) (r : RegIndex) (v : Word) : (s.writeReg r v).run = s.run := rfl
@[simp] theorem writeReg_inp (s : State) (r : RegIndex) (v : Word) : (s.writeReg r v).inp = s.inp := rfl
@[simp] theorem writeReg_out (s : State) (r : RegIndex) (v : Word) : (s.writeReg r v).out = s.out := rfl
@[simp] theorem writeReg_stackCapacity (s : State) (r : RegIndex) (v : Word) : (s.writeReg r v).stackCapacity = s.stackCapacity := rfl

@[simp] theorem writeMem_regs (s : State) (a : Nat) (v : Word) : (s.writeMem a v).regs = s.regs := rfl
@[simp] theorem writeMem_mem (s : State) (a : Nat) (v : Word) : (s.writeMem a v).mem = s.mem.write a v := rfl
@[simp] theorem writeMem_stack (s : State) (a : Nat) (v : Word) : (s.writeMem a v).stack = s.stack := rfl
@[simp] theorem writeMem_ip (s : State) (a : Nat) (v : Word) : (s.writeMem a v).ip = s.ip := rfl
@[simp] theorem writeMem_run (s : State) (a : Nat) (v : Word) : (s.writeMem a v).run = s.run := rfl
@[simp] theorem writeMem_inp (s : State) (a : Nat) (v : Word) : (s.writeMem a v).inp = s.inp := rfl
@[simp] theorem writeMem_out (s : State) (a : Nat) (v : Word) : (s.writeMem a v).out = s.out := rfl
@[simp] theorem writeMem_stackCapacity (s : State) (a : Nat) (v : Word) : (s.writeMem a v).stackCapacity = s.stackCapacity := rfl

@[simp] theorem setIp_regs (s : State) (t : Word) : (s.setIp t).regs = s.regs := rfl
@[simp] theorem setIp_mem (s : State) (t : Word) : (s.setIp t).mem = s.mem := rfl
@[simp] theorem setIp_stack (s : State) (t : Word) : (s.setIp t).stack = s.stack := rfl
@[simp] theorem setIp_ip (s : State) (t : Word) : (s.setIp t).ip = t := rfl
@[simp] theorem setIp_run (s : State) (t : Word) : (s.setIp t).run = s.run := rfl
@[simp] theorem setIp_inp (s : State) (t : Word) : (s.setIp t).inp = s.inp := rfl
@[simp] theorem setIp_out (s : State) (t : Word) : (s.setIp t).out = s.out := rfl
@[simp] theorem setIp_stackCapacity (s : State) (t : Word) : (s.setIp t).stackCapacity = s.stackCapacity := rfl

@[simp] theorem setRun_regs (s : State) (r : RunState) : (s.setRun r).regs = s.regs := rfl
@[simp] theorem setRun_mem (s : State) (r : RunState) : (s.setRun r).mem = s.mem := rfl
@[simp] theorem setRun_stack (s : State) (r : RunState) : (s.setRun r).stack = s.stack := rfl
@[simp] theorem setRun_ip (s : State) (r : RunState) : (s.setRun r).ip = s.ip := rfl
@[simp] theorem setRun_run (s : State) (r : RunState) : (s.setRun r).run = r := rfl
@[simp] theorem setRun_inp (s : State) (r : RunState) : (s.setRun r).inp = s.inp := rfl
@[simp] theorem setRun_out (s : State) (r : RunState) : (s.setRun r).out = s.out := rfl
@[simp] theorem setRun_stackCapacity (s : State) (r : RunState) : (s.setRun r).stackCapacity = s.stackCapacity := rfl

@[simp] theorem pushWord_regs (s : State) (v : Word) : (s.pushWord v).regs = s.regs := rfl
@[simp] theorem pushWord_mem (s : State) (v : Word) : (s.pushWord v).mem = s.mem := rfl
@[simp] theorem pushWord_stack (s : State) (v : Word) : (s.pushWord v).stack = s.stack ++ [v] := rfl
@[simp] theorem pushWord_ip (s : State) (v : Word) : (s.pushWord v).ip = s.ip := rfl
@[simp] theorem pushWord_run (s : State) (v : Word) : (s.pushWord v).run = s.run := rfl
@[simp] theorem pushWord_inp (s : State) (v : Word) : (s.pushWord v).inp = s.inp := rfl
@[simp] theorem pushWord_out (s : State) (v : Word) : (s.pushWord v).out = s.out := rfl
@[simp] theorem pushWord_stackCapacity (s : State) (v : Word) : (s.pushWord v).stackCapacity = s.stackCapacity := rfl

@[simp] theorem dropTop_regs (s : State) : s.dropTop.regs = s.regs := rfl
@[simp] theorem dropTop_mem (s : State) : s.dropTop.mem = s.mem := rfl
@[simp] theorem dropTop_stack (s : State) : s.dropTop.stack = s.stack.dropLast := rfl
@[simp] theorem dropTop_ip (s : State) : s.dropTop.ip = s.ip := rfl
@[simp] theorem dropTop_run (s : State) : s.dropTop.run = s.run := rfl
@[simp] theorem dropTop_inp (s : State) : s.dropTop.inp = s.inp := rfl
@[simp] theorem dropTop_out (s : State) : s.dropTop.out = s.out := rfl
@[simp] theorem dropTop_stackCapacity (s : State) : s.dropTop.stackCapacity = s.stackCapacity := rfl

@[simp] theorem emit_regs (s : State) (b : Byte) : (s.emit b).regs = s.regs := rfl
@[simp] theorem emit_mem (s : State) (b : Byte) : (s.emit b).mem = s.mem := rfl
@[simp] theorem emit_stack (s : State) (b : Byte) : (s.emit b).stack = s.stack := rfl
@[simp] theorem emit_ip (s : State) (b : Byte) : (s.emit b).ip = s.ip := rfl
@[simp] theorem emit_run (s : State) (b : Byte) : (s.emit b).run = s.run := rfl
@[simp] theorem emit_inp (s : State) (b : Byte) : (s.emit b).inp = s.inp := rfl
@[simp] theorem emit_out (s : State) (b : Byte) : (s.emit b).out = s.out ++ [b] := rfl
@[simp] theorem emit_stackCapacity (s : State) (b : Byte) : (s.emit b).stackCapacity = s.stackCapacity := rfl

@[simp] theorem dropInput_regs (s : State) : s.dropInput.regs = s.regs := rfl
@[simp] theorem dropInput_mem (s : State) : s.dropInput.mem = s.mem := rfl
@[simp] theorem dropInput_stack (s : State) : s.dropInput.stack = s.stack := rfl
@[simp] theorem dropInput_ip (s : State) : s.dropInput.ip = s.ip := rfl
@[simp] theorem dropInput_run (s : State) : s.dropInput.run = s.run := rfl
@[simp] theorem dropInput_inp (s : State) : s.dropInput.inp = ⟨s.inp.queue.tail, s.inp.closed⟩ := rfl
@[simp] theorem dropInput_out (s : State) : s.dropInput.out = s.out := rfl
@[simp] theorem dropInput_stackCapacity (s : State) : s.dropInput.stackCapacity = s.stackCapacity := rfl

@[simp] theorem supplyInput_regs (s : State) (bs : List Byte) : (s.supplyInput bs).regs = s.regs := rfl
@[simp] theorem supplyInput_mem (s : State) (bs : List Byte) : (s.supplyInput bs).mem = s.mem := rfl
@[simp] theorem supplyInput_stack (s : State) (bs : List Byte) : (s.supplyInput bs).stack = s.stack := rfl
@[simp] theorem supplyInput_ip (s : State) (bs : List Byte) : (s.supplyInput bs).ip = s.ip := rfl
@[simp] theorem supplyInput_run (s : State) (bs : List Byte) : (s.supplyInput bs).run = s.run := rfl
@[simp] theorem supplyInput_inp (s : State) (bs : List Byte) : (s.supplyInput bs).inp = ⟨s.inp.queue ++ bs, s.inp.closed⟩ := rfl
@[simp] theorem supplyInput_out (s : State) (bs : List Byte) : (s.supplyInput bs).out = s.out := rfl
@[simp] theorem supplyInput_stackCapacity (s : State) (bs : List Byte) : (s.supplyInput bs).stackCapacity = s.stackCapacity := rfl

@[simp] theorem closeInput_regs (s : State) : s.closeInput.regs = s.regs := rfl
@[simp] theorem closeInput_mem (s : State) : s.closeInput.mem = s.mem := rfl
@[simp] theorem closeInput_stack (s : State) : s.closeInput.stack = s.stack := rfl
@[simp] theorem closeInput_ip (s : State) : s.closeInput.ip = s.ip := rfl
@[simp] theorem closeInput_run (s : State) : s.closeInput.run = s.run := rfl
@[simp] theorem closeInput_inp (s : State) : s.closeInput.inp = ⟨s.inp.queue, true⟩ := rfl
@[simp] theorem closeInput_out (s : State) : s.closeInput.out = s.out := rfl
@[simp] theorem closeInput_stackCapacity (s : State) : s.closeInput.stackCapacity = s.stackCapacity := rfl

@[simp] theorem raise_regs (s : State) (e : FaultEvent) : (s.raise e).regs = s.regs := rfl
@[simp] theorem raise_mem (s : State) (e : FaultEvent) : (s.raise e).mem = s.mem := rfl
@[simp] theorem raise_stack (s : State) (e : FaultEvent) : (s.raise e).stack = s.stack := rfl
@[simp] theorem raise_ip (s : State) (e : FaultEvent) : (s.raise e).ip = s.ip := rfl
@[simp] theorem raise_run (s : State) (e : FaultEvent) : (s.raise e).run = .faulted e.kind e.info := rfl
@[simp] theorem raise_inp (s : State) (e : FaultEvent) : (s.raise e).inp = s.inp := rfl
@[simp] theorem raise_out (s : State) (e : FaultEvent) : (s.raise e).out = s.out := rfl
@[simp] theorem raise_stackCapacity (s : State) (e : FaultEvent) : (s.raise e).stackCapacity = s.stackCapacity := rfl

@[simp] theorem halt_regs (s : State) (r : HaltReason) (w : Word) : (s.halt r w).regs = s.regs := rfl
@[simp] theorem halt_mem (s : State) (r : HaltReason) (w : Word) : (s.halt r w).mem = s.mem := rfl
@[simp] theorem halt_stack (s : State) (r : HaltReason) (w : Word) : (s.halt r w).stack = s.stack := rfl
@[simp] theorem halt_ip (s : State) (r : HaltReason) (w : Word) : (s.halt r w).ip = s.ip + 1 := rfl
@[simp] theorem halt_run (s : State) (r : HaltReason) (w : Word) : (s.halt r w).run = .halted r w := rfl
@[simp] theorem halt_inp (s : State) (r : HaltReason) (w : Word) : (s.halt r w).inp = s.inp := rfl
@[simp] theorem halt_out (s : State) (r : HaltReason) (w : Word) : (s.halt r w).out = s.out := rfl
@[simp] theorem halt_stackCapacity (s : State) (r : HaltReason) (w : Word) : (s.halt r w).stackCapacity = s.stackCapacity := rfl

/-- A register read after a register write (10_state.md R20: no register aliases another). -/
theorem readReg_writeReg (s : State) (r q : RegIndex) (v : Word) :
    (s.writeReg r v).readReg q = if r = q then v else s.readReg q := by
  simp [readReg, writeReg, Vector.getElem_set, Fin.ext_iff]

@[simp] theorem readReg_writeReg_same (s : State) (r : RegIndex) (v : Word) :
    (s.writeReg r v).readReg r = v := by simp [readReg_writeReg]

theorem readReg_writeReg_ne (s : State) (v : Word) {r q : RegIndex} (h : r ≠ q) :
    (s.writeReg r v).readReg q = s.readReg q := by simp [readReg_writeReg, h]

/-- Reading a register looks at the register file alone. -/
theorem readReg_congr {s t : State} (h : t.regs = s.regs) (r : RegIndex) : t.readReg r = s.readReg r := by
  simp [readReg, h]

@[simp] theorem readReg_setIp (s : State) (t : Word) (r : RegIndex) : (s.setIp t).readReg r = s.readReg r := rfl
@[simp] theorem readReg_setRun (s : State) (x : RunState) (r : RegIndex) : (s.setRun x).readReg r = s.readReg r := rfl
@[simp] theorem readReg_writeMem (s : State) (a : Nat) (v : Word) (r : RegIndex) :
    (s.writeMem a v).readReg r = s.readReg r := rfl
@[simp] theorem readReg_pushWord (s : State) (v : Word) (r : RegIndex) : (s.pushWord v).readReg r = s.readReg r := rfl
@[simp] theorem readReg_dropTop (s : State) (r : RegIndex) : s.dropTop.readReg r = s.readReg r := rfl
@[simp] theorem readReg_emit (s : State) (b : Byte) (r : RegIndex) : (s.emit b).readReg r = s.readReg r := rfl
@[simp] theorem readReg_dropInput (s : State) (r : RegIndex) : s.dropInput.readReg r = s.readReg r := rfl

/-- The registers of a machine just reset hold 0 (10_state.md R39). -/
theorem readReg_resetWith (c : Option Nat) (inp : InputChannel) (r : RegIndex) :
    (resetWith c inp).readReg r = 0 := by simp [readReg, resetWith]

end Sys2Proof.Machine.State
end

