-- ==== Sys2Proof/Laws/Environment.lean ====
section
/-! SUPPORT. Reset, load and boot. -/

namespace Sys2Proof.Machine

/-- A machine just reset is what reset gives again. -/
@[simp] theorem resetFrom_resetWith (c : Option Nat) (inp : InputChannel) :
    (State.resetWith c inp).resetFrom (State.resetWith c inp).inp = State.resetWith c inp := rfl

/-- What `boot` answers: the machine of reset with the image in memory, or the refusal of a long image. -/
theorem boot_eq (c : Option Nat) (inp : InputChannel) (image : List Byte) :
    boot c inp image =
      if 32768 < image.length / 2 then .refused .imageTooLong
      else .next { State.resetWith c inp with mem := loadBytes ⟨[]⟩ 0 image } := by
  unfold boot load
  rw [if_neg (by simp)]
  rfl

/-- If `load` answers a next state, the machine was just reset, the image fitted, and memory alone changed. -/
theorem load_next {s t : State} {image : List Byte} (h : load image s = .next t) :
    s = s.resetFrom s.inp ∧ image.length / 2 ≤ 32768 ∧ t = { s with mem := loadBytes s.mem 0 image } := by
  unfold load at h
  split at h
  · cases h
  · rename_i hs
    split at h
    · cases h
    · rename_i hl
      have hl' : ¬ 32768 < image.length / 2 := hl
      exact ⟨by simpa using hs, by omega, by simpa using h.symm⟩

end Sys2Proof.Machine
end

