-- ==== Sys2Proof/Laws/Operands.lean ====
section
/-! SUPPORT. What operand resolution can answer, and what the shared shapes of the meanings do. -/

namespace Sys2Proof.Machine

theorem argumentFault_reg (s : State) (r : RegIndex) :
    argumentFault s (.source (.reg r)) =
      if 32767 < (s.readReg r).toNat then some ⟨.nonDataValue, regWord r⟩ else none := rfl

@[simp] theorem argumentFault_dest_reg (s : State) (d : RegIndex) :
    argumentFault s (.dest (.reg d)) = none := rfl

@[simp] theorem argumentFault_dest_bad (s : State) (w : Word) :
    argumentFault s (.dest (.bad w)) = some ⟨.badDestination, w⟩ := rfl

/-- A source resolves to its value exactly where it has one (40_fetch_decode_step.md R96). -/
theorem resolve_eq_ok {s : State} {o : Operand} {v : DataValue} :
    resolve s o = .ok v ↔ sourceValue s o = some v.toNat := by
  cases o with
  | lit c =>
    simp only [resolve, sourceValue, Except.ok.injEq, Option.some.injEq]
    exact ⟨fun h => h ▸ rfl, BitVec.eq_of_toNat_eq⟩
  | reg r =>
    simp only [resolve, sourceValue]
    split
    · simp only [Except.ok.injEq, Option.some.injEq]
      constructor
      · rintro rfl
        simp only [BitVec.toNat_setWidth]
        omega
      · intro h
        apply BitVec.eq_of_toNat_eq
        simp only [BitVec.toNat_setWidth]
        omega
    · simp
  | bad w => simp [resolve, sourceValue]

/-- A source raises its fault exactly where it has one. -/
theorem resolve_eq_error {s : State} {o : Operand} {e : FaultEvent} :
    resolve s o = .error e ↔ argumentFault s (.source o) = some e := by
  cases o with
  | lit c => simp [resolve, argumentFault]
  | reg r =>
    simp only [resolve, argumentFault_reg]
    split
    · rw [if_neg (by omega)]; simp
    · rw [if_pos (by omega)]; simp
  | bad w => simp [resolve, argumentFault]

/-- A source that resolves raises nothing. -/
theorem argumentFault_of_resolve {s : State} {o : Operand} {v : DataValue} (h : resolve s o = .ok v) :
    argumentFault s (.source o) = none := by
  rcases hf : argumentFault s (.source o) with _ | e
  · rfl
  · rw [resolve_eq_error.2 hf] at h; cases h

/-- The value of a source names a data value. -/
theorem resolve_of_sourceValue {s : State} {o : Operand} {n : Nat} (h : sourceValue s o = some n) :
    ∃ v : DataValue, resolve s o = .ok v ∧ v.toNat = n ∧ v.word = BitVec.ofNat 16 n := by
  have hn : n < 32768 := by
    cases o with
    | lit c => simp only [sourceValue, Option.some.injEq] at h; omega
    | reg r =>
      simp only [sourceValue] at h
      split at h
      · simp only [Option.some.injEq] at h; omega
      · cases h
    | bad w => cases h
  have hv : (BitVec.ofNat 15 n).toNat = n := by simp only [BitVec.toNat_ofNat]; omega
  refine ⟨BitVec.ofNat 15 n, resolve_eq_ok.2 (by rw [hv]; exact h), hv, ?_⟩
  apply BitVec.eq_of_toNat_eq
  rw [DataValue.toNat_word, hv, BitVec.toNat_ofNat]
  omega

theorem destIndex_eq_ok {s : State} {d : Destination} {r : RegIndex} :
    destIndex d = .ok r ↔ d = .reg r ∧ argumentFault s (.dest d) = none := by
  cases d <;> simp [destIndex, argumentFault]

theorem destIndex_eq_error {s : State} {d : Destination} {e : FaultEvent} :
    destIndex d = .error e ↔ argumentFault s (.dest d) = some e := by
  cases d <;> simp [destIndex, argumentFault]

/-- What `withSource` does: it goes on with the value, or takes the source's fault. -/
theorem withSource_ok {s : State} {o : Operand} {v : DataValue} (h : resolve s o = .ok v)
    (k : DataValue → Result) : withSource s o k = k v := by simp [withSource, h]

theorem withSource_error {s : State} {o : Operand} {e : FaultEvent}
    (h : argumentFault s (.source o) = some e) (k : DataValue → Result) :
    withSource s o k = .next (s.raise e) := by simp [withSource, resolve_eq_error.2 h]

/-- If `withSource` answers a next state, the source had a value and the rest answered it, or the source's
fault was taken. -/
theorem withSource_next {s t : State} {o : Operand} {k : DataValue → Result}
    (h : withSource s o k = .next t) :
    (∃ v, resolve s o = .ok v ∧ k v = .next t) ∨
      (∃ e, argumentFault s (.source o) = some e ∧ t = s.raise e) := by
  unfold withSource at h
  split at h
  · exact .inl ⟨_, ‹_›, h⟩
  · exact .inr ⟨_, resolve_eq_error.1 ‹_›, by simpa using h.symm⟩

theorem withDest_reg (s : State) (r : RegIndex) (k : RegIndex → Result) :
    withDest s (.reg r) k = k r := rfl

theorem withDest_bad (s : State) (w : Word) (k : RegIndex → Result) :
    withDest s (.bad w) k = .next (s.raise ⟨.badDestination, w⟩) := rfl

theorem withDest_error {s : State} {d : Destination} {e : FaultEvent}
    (h : argumentFault s (.dest d) = some e) (k : RegIndex → Result) :
    withDest s d k = .next (s.raise e) := by simp [withDest, destIndex_eq_error.2 h]

/-- If `withDest` answers a next state, the destination named a register and the rest answered it, or the
destination's fault was taken. -/
theorem withDest_next {s t : State} {d : Destination} {k : RegIndex → Result}
    (h : withDest s d k = .next t) :
    (∃ r, d = .reg r ∧ k r = .next t) ∨
      (∃ e, argumentFault s (.dest d) = some e ∧ t = s.raise e) := by
  cases d with
  | reg r => exact .inl ⟨r, rfl, h⟩
  | bad w => exact .inr ⟨_, rfl, by simpa [withDest, destIndex] using h.symm⟩

/-- If `unary` answers a next state, the destination took the result, or an argument's fault was taken. -/
theorem unary_next {s t : State} {f : DataValue → Word} {a : Destination} {b : Operand}
    (h : unary f a b s = .next t) :
    (∃ d vb, a = .reg d ∧ resolve s b = .ok vb ∧ t = (s.writeReg d (f vb)).setIp (s.after 3)) ∨
      (∃ e, [Argument.dest a, .source b].findSome? (argumentFault s) = some e ∧ t = s.raise e) := by
  rcases withDest_next h with ⟨d, rfl, h⟩ | ⟨e, he, rfl⟩
  · rcases withSource_next h with ⟨vb, hb, h⟩ | ⟨e, he, rfl⟩
    · exact .inl ⟨d, vb, rfl, hb, by simpa [complete] using h.symm⟩
    · exact .inr ⟨e, by simp [List.findSome?_cons, he], rfl⟩
  · exact .inr ⟨e, by simp [he], rfl⟩

/-- If `binary` answers a next state, the destination took the result, or an argument's fault was taken. -/
theorem binary_next {s t : State} {f : DataValue → DataValue → Word} {a : Destination} {b c : Operand}
    (h : binary f a b c s = .next t) :
    (∃ d vb vc, a = .reg d ∧ resolve s b = .ok vb ∧ resolve s c = .ok vc ∧
        t = (s.writeReg d (f vb vc)).setIp (s.after 4)) ∨
      (∃ e, [Argument.dest a, .source b, .source c].findSome? (argumentFault s) = some e ∧
        t = s.raise e) := by
  rcases withDest_next h with ⟨d, rfl, h⟩ | ⟨e, he, rfl⟩
  · rcases withSource_next h with ⟨vb, hb, h⟩ | ⟨e, he, rfl⟩
    · rcases withSource_next h with ⟨vc, hc, h⟩ | ⟨e, he, rfl⟩
      · exact .inl ⟨d, vb, vc, rfl, hb, hc, by simpa [complete] using h.symm⟩
      · exact .inr ⟨e, by simp [List.findSome?_cons, argumentFault_of_resolve hb, he], rfl⟩
    · exact .inr ⟨e, by simp [List.findSome?_cons, he], rfl⟩
  · exact .inr ⟨e, by simp [he], rfl⟩

/-- If `jumpIf` answers a next state, `ip` went to the target or past the instruction, or an argument's fault
was taken. -/
theorem jumpIf_next {s t : State} {p : DataValue → Bool} {a b : Operand} (h : jumpIf p a b s = .next t) :
    (∃ va vb, resolve s a = .ok va ∧ resolve s b = .ok vb ∧
        t = s.setIp (if p va then vb.word else s.after 3)) ∨
      (∃ e, [Argument.source a, .source b].findSome? (argumentFault s) = some e ∧ t = s.raise e) := by
  rcases withSource_next h with ⟨va, ha, h⟩ | ⟨e, he, rfl⟩
  · rcases withSource_next h with ⟨vb, hb, h⟩ | ⟨e, he, rfl⟩
    · exact .inl ⟨va, vb, ha, hb, by simpa using h.symm⟩
    · exact .inr ⟨e, by simp [argumentFault_of_resolve ha, he], rfl⟩
  · exact .inr ⟨e, by simp [he], rfl⟩

end Sys2Proof.Machine
end

