-- ==== Sys2Proof/Laws/Ops.lean ====
section
/-! SUPPORT. What each shared operation can do, once. -/

namespace Sys2Proof.Machine

/-- `complete` always completes: the register, `ip`, nothing else. -/
theorem complete_next {s t : State} {d : RegIndex} {v : Word} {n : Nat} :
    complete s d v n = .next t ↔ t = (s.writeReg d v).setIp (s.after n) := by
  simp [complete, eq_comm]

theorem State.stackFull_iff (s : State) : s.stackFull = true ↔ s.stackCapacity = some s.stack.length := by
  simp [State.stackFull]

/-- An unbounded stack is never full (10_state.md R29). -/
theorem State.stackFull_unbounded {s : State} (h : s.stackCapacity = none) : s.stackFull = false := by
  simp [State.stackFull, h]

/-- If `pushThen` answers a next state, the word was pushed, or the stack was full and the fault was taken. -/
theorem pushThen_next {s t : State} {v x : Word} (h : pushThen s v x = .next t) :
    (s.stackCapacity ≠ some s.stack.length ∧ t = (s.pushWord v).setIp x) ∨
      (s.stackCapacity = some s.stack.length ∧ t = s.raise ⟨.stackOverflow, 0⟩) := by
  unfold pushThen at h
  split at h
  · exact .inr ⟨s.stackFull_iff.1 ‹_›, by simpa using h.symm⟩
  · rename_i hf
    exact .inl ⟨fun hc => hf (s.stackFull_iff.2 hc), by simpa using h.symm⟩

/-- The channel's answer (10_state.md R35). -/
theorem InputChannel.answer_byte {c : InputChannel} {b : Byte} :
    c.answer = .byte b ↔ ∃ rest, c.queue = b :: rest := by
  unfold InputChannel.answer
  split
  · rename_i b' rest hq
    rw [hq]
    simp
  · rename_i hq
    rw [hq]
    split <;> simp

theorem InputChannel.answer_eof {c : InputChannel} : c.answer = .eof ↔ c.queue = [] ∧ c.closed = true := by
  unfold InputChannel.answer
  split
  · rename_i hq; rw [hq]; simp
  · rename_i hq; rw [hq]; split <;> simp_all

theorem InputChannel.answer_notReady {c : InputChannel} :
    c.answer = .notReady ↔ c.queue = [] ∧ c.closed = false := by
  unfold InputChannel.answer
  split
  · rename_i hq; rw [hq]; simp
  · rename_i hq; rw [hq]; split <;> simp_all

/-! The fetch (40_fetch_decode_step.md R91). -/

theorem fetchWord_ok {m : Memory} {a : Nat} {w : Word} :
    fetchWord m a = .ok w ↔ a < 32768 ∧ w = m.read a := by
  unfold fetchWord
  split
  · rename_i h
    have h' : a < 32768 := h
    simp [h', eq_comm]
  · rename_i h
    have h' : ¬ a < 32768 := h
    simp [h']

theorem fetchWord_error {m : Memory} {a e : Nat} : fetchWord m a = .error e ↔ 32768 ≤ a ∧ e = a := by
  unfold fetchWord
  split
  · rename_i h
    have h' : a < 32768 := h
    simp; omega
  · rename_i h
    have h' : ¬ a < 32768 := h
    simp; omega

/-- The argument words are the cells from `a` on, all of which exist. -/
theorem fetchArgs_ok {m : Memory} {a n : Nat} {ws : List Word} (h : fetchArgs m a n = .ok ws) :
    ws = (List.range' a n).map m.read ∧ (n = 0 ∨ a + n ≤ 32768) := by
  induction n generalizing a ws with
  | zero =>
    simp only [fetchArgs, Except.ok.injEq] at h
    exact ⟨by simp [← h], .inl rfl⟩
  | succ n ih =>
    simp only [fetchArgs] at h
    split at h
    · cases h
    · rename_i w hw
      split at h
      · cases h
      · rename_i ws' hws
        obtain ⟨ha, rfl⟩ := fetchWord_ok.1 hw
        obtain ⟨rfl, hn⟩ := ih hws
        simp only [Except.ok.injEq] at h
        exact ⟨by rw [← h, List.range'_succ]; rfl, .inr (by omega)⟩

/-- The address that stops the argument fetch is the first one beyond memory. -/
theorem fetchArgs_error {m : Memory} {a n e : Nat} (h : fetchArgs m a n = .error e) :
    32768 < a + n ∧ e = max a 32768 := by
  induction n generalizing a e with
  | zero => cases h
  | succ n ih =>
    simp only [fetchArgs] at h
    split at h
    · rename_i e' he
      obtain ⟨h1, rfl⟩ := fetchWord_error.1 he
      simp only [Except.error.injEq] at h
      exact ⟨by omega, by omega⟩
    · rename_i w hw
      have := (fetchWord_ok.1 hw).1
      split at h
      · rename_i e' he
        obtain ⟨h1, rfl⟩ := ih he
        simp only [Except.error.injEq] at h
        exact ⟨by omega, by omega⟩
      · cases h

/-- The argument fetch succeeds where its cells exist. -/
theorem fetchArgs_of_le (m : Memory) {a n : Nat} (h : a + n ≤ 32768) :
    fetchArgs m a n = .ok ((List.range' a n).map m.read) := by
  rcases hf : fetchArgs m a n with e | ws
  · exact absurd (fetchArgs_error hf).1 (by omega)
  · rw [(fetchArgs_ok hf).1]

/-- The fetched words: the opcode word at `a` and the cells after it, all of which exist. -/
theorem fetch_ok {m : Memory} {a : Nat} {ws : List Word} (h : fetch m a = .ok ws) :
    ws = m.read a :: (List.range' (a + 1) (argc (m.read a))).map m.read ∧
      a + 1 + argc (m.read a) ≤ 32768 := by
  simp only [fetch] at h
  split at h
  · cases h
  · rename_i w0 hw
    obtain ⟨ha, rfl⟩ := fetchWord_ok.1 hw
    split at h
    · cases h
    · rename_i args hargs
      obtain ⟨rfl, hn⟩ := fetchArgs_ok hargs
      simp only [Except.ok.injEq] at h
      exact ⟨h.symm, by omega⟩

/-- The fetch succeeds where all the instruction's cells exist. -/
theorem fetch_of_le {m : Memory} {a : Nat} (h : a + 1 + argc (m.read a) ≤ 32768) :
    fetch m a = .ok (m.read a :: (List.range' (a + 1) (argc (m.read a))).map m.read) := by
  have hw : fetchWord m a = .ok (m.read a) := fetchWord_ok.2 ⟨by omega, rfl⟩
  simp [fetch, hw, fetchArgs_of_le m h]

/-- The fetch fails at the first address beyond memory. -/
theorem fetch_error {m : Memory} {a e : Nat} (h : fetch m a = .error e) :
    32768 < a + 1 + argc (m.read a) ∧ e = max a 32768 := by
  simp only [fetch] at h
  split at h
  · rename_i e' he
    obtain ⟨h1, rfl⟩ := fetchWord_error.1 he
    simp only [Except.error.injEq] at h
    exact ⟨by omega, by omega⟩
  · rename_i w0 hw
    obtain ⟨ha, rfl⟩ := fetchWord_ok.1 hw
    split at h
    · rename_i e' he
      obtain ⟨h1, rfl⟩ := fetchArgs_error he
      simp only [Except.error.injEq] at h
      exact ⟨by omega, by omega⟩
    · cases h

end Sys2Proof.Machine
end

