-- ==== Sys2Proof/Laws/Step.lean ====
section
/-! SUPPORT. What a step can do: idle, stop at the fetch, or execute the instruction its words decode to. -/

namespace Sys2Proof.Machine

/-- What the fetch hands over decodes, with no word left. -/
theorem decode_of_fetch {m : Memory} {a : Nat} {ws : List Word} (h : fetch m a = .ok ws) :
    ∃ i, decode ws = .ok (i, []) := by
  rw [(fetch_ok h).1]
  exact decode_of_length (by simp)

/-- No state raises `fetchTooShort` in a step whose fetch succeeds (log entry 9). -/
theorem stepRunning_of_fetch {s : State} {ws : List Word} (h : fetch s.mem s.ip.toNat = .ok ws) :
    ∃ i, decode ws = .ok (i, []) ∧ stepRunning s = exec i s := by
  obtain ⟨i, hi⟩ := decode_of_fetch h
  exact ⟨i, hi, by simp [stepRunning, h, hi]⟩

theorem step_of_running {s : State} (h : s.run = .running) : step s = stepRunning s := by
  simp [step, h]

theorem step_of_not_running {s : State} (h : s.run ≠ .running) : step s = .next s := by
  unfold step
  split
  · contradiction
  · rfl
  · rfl

/-- What a step of a running machine does: the fetch meets an address beyond memory, or the words at `ip`
decode to the instruction that is executed. -/
theorem step_running_cases {s : State} (hr : s.run = .running) :
    (∃ a, fetch s.mem s.ip.toNat = .error a ∧
        step s = .next (s.raise ⟨.fetchOutOfRange, BitVec.ofNat 16 a⟩)) ∨
      (∃ i, s.ip.toNat + 1 + argc (s.mem.read s.ip.toNat) ≤ 32768 ∧
        decode (s.mem.read s.ip.toNat ::
          (List.range' (s.ip.toNat + 1) (argc (s.mem.read s.ip.toNat))).map s.mem.read) = .ok (i, []) ∧
        step s = exec i s) := by
  rw [step_of_running hr]
  rcases h : fetch s.mem s.ip.toNat with a | ws
  · exact .inl ⟨a, rfl, by simp [stepRunning, h, fetchFault]⟩
  · obtain ⟨i, hi, hs⟩ := stepRunning_of_fetch h
    obtain ⟨hws, hle⟩ := fetch_ok h
    exact .inr ⟨i, hle, hws ▸ hi, hs⟩

/-- No steps lead nowhere else. -/
theorem run_zero (s : State) : core.run 0 s = .next s := rfl

/-- A run goes on from the state its first step answers. -/
theorem run_next {s t : State} (k : Nat) (h : step s = .next t) : core.run (k + 1) s = core.run k t := by
  have h' : core.step s = .next t := h
  have hrun := Host.Core.run.eq_2 core s k
  rw [hrun, h']

@[simp] theorem withFetchWord_ip (s : State) (nbits w : Nat) : (s.withFetchWord nbits w).ip = s.ip := rfl
@[simp] theorem withFetchWord_run (s : State) (nbits w : Nat) : (s.withFetchWord nbits w).run = .running := rfl
@[simp] theorem withFetchWord_regs (s : State) (nbits w : Nat) : (s.withFetchWord nbits w).regs = s.regs := rfl
@[simp] theorem withFetchWord_mem (s : State) (nbits w : Nat) :
    (s.withFetchWord nbits w).mem = storeWords s.mem s.ip.toNat (tableWords nbits w) := rfl

end Sys2Proof.Machine
end

