-- ==== Sys2Proof/Laws/Exec.lean ====
section
/-! SUPPORT. What `exec` can do, said once for every constructor, and what a step of a running machine can do,
over it. Every claim about the whole machine is a case analysis of these. -/

namespace Sys2Proof.Machine

/-- The effect of an instruction whose operands are all legal. -/
def Effect (s t : State) : Instr → Prop
  | .halt => t = s.halt .haltOpcode 0
  | .set a b => ∃ d vb, a = .reg d ∧ resolve s b = .ok vb ∧ t = (s.writeReg d vb.word).setIp (s.after 3)
  | .push a => ∃ va, resolve s a = .ok va ∧ pushThen s va.word (s.after 2) = .next t
  | .pop a => ∃ d, a = .reg d ∧
      ((s.stack = [] ∧ t = s.raise ⟨.stackUnderflow, 0⟩) ∨
        ∃ w, s.stack.getLast? = some w ∧ t = (s.dropTop.writeReg d w).setIp (s.after 2))
  | .eq a b c => ∃ d vb vc, a = .reg d ∧ resolve s b = .ok vb ∧ resolve s c = .ok vc ∧
      t = (s.writeReg d (Alu.eq vb vc)).setIp (s.after 4)
  | .gt a b c => ∃ d vb vc, a = .reg d ∧ resolve s b = .ok vb ∧ resolve s c = .ok vc ∧
      t = (s.writeReg d (Alu.gt vb vc)).setIp (s.after 4)
  | .jmp a => ∃ va, resolve s a = .ok va ∧ t = s.setIp va.word
  | .jt a b => ∃ va vb, resolve s a = .ok va ∧ resolve s b = .ok vb ∧
      t = s.setIp (if isNonzero va then vb.word else s.after 3)
  | .jf a b => ∃ va vb, resolve s a = .ok va ∧ resolve s b = .ok vb ∧
      t = s.setIp (if isZero va then vb.word else s.after 3)
  | .add a b c => ∃ d vb vc, a = .reg d ∧ resolve s b = .ok vb ∧ resolve s c = .ok vc ∧
      t = (s.writeReg d (Alu.add vb vc)).setIp (s.after 4)
  | .mult a b c => ∃ d vb vc, a = .reg d ∧ resolve s b = .ok vb ∧ resolve s c = .ok vc ∧
      t = (s.writeReg d (Alu.mult vb vc)).setIp (s.after 4)
  | .mod a b c => ∃ d vb vc, a = .reg d ∧ resolve s b = .ok vb ∧ resolve s c = .ok vc ∧
      ((Alu.mod vb vc = none ∧ t = s.raise ⟨.divideByZero, 0⟩) ∨
        ∃ r, Alu.mod vb vc = some r ∧ t = (s.writeReg d r).setIp (s.after 4))
  | .and_ a b c => ∃ d vb vc, a = .reg d ∧ resolve s b = .ok vb ∧ resolve s c = .ok vc ∧
      t = (s.writeReg d (Alu.and vb vc)).setIp (s.after 4)
  | .or_ a b c => ∃ d vb vc, a = .reg d ∧ resolve s b = .ok vb ∧ resolve s c = .ok vc ∧
      t = (s.writeReg d (Alu.or vb vc)).setIp (s.after 4)
  | .not_ a b => ∃ d vb, a = .reg d ∧ resolve s b = .ok vb ∧ t = (s.writeReg d (Alu.not vb)).setIp (s.after 3)
  | .rmem a b => ∃ d vb, a = .reg d ∧ resolve s b = .ok vb ∧
      t = (s.writeReg d (s.mem.read vb.toNat)).setIp (s.after 3)
  | .wmem a b => ∃ va vb, resolve s a = .ok va ∧ resolve s b = .ok vb ∧
      t = (s.writeMem va.toNat vb.word).setIp (s.after 3)
  | .call a => ∃ va, resolve s a = .ok va ∧ pushThen s (s.after 2) va.word = .next t
  | .ret => (s.stack = [] ∧ t = s.halt .emptyStackReturn 0) ∨
      ∃ w, s.stack.getLast? = some w ∧ t = s.dropTop.setIp w
  | .out a => ∃ va, resolve s a = .ok va ∧ t = (s.emit (va.setWidth 8)).setIp (s.after 2)
  | .in_ a => ∃ d, a = .reg d ∧
      ((∃ b, s.inp.answer = .byte b ∧ t = (s.dropInput.writeReg d (b.setWidth 16)).setIp (s.after 2)) ∨
        (s.inp.answer = .eof ∧ t = s.raise ⟨.inputExhausted, 0⟩) ∨
        (s.inp.answer = .notReady ∧ t = s))
  | .noop => t = s.setIp (s.after 1)
  | .invalid w => t = s.halt .invalidOpcode w

/-- If an instruction answers a next state, its first operand fault was taken or it had its effect. -/
theorem exec_next {s t : State} {i : Instr} (h : exec i s = .next t) :
    (∃ e, firstFault s i = some e ∧ t = s.raise e) ∨ Effect s t i := by
  have ofUnary : ∀ {f a b}, unary f a b s = .next t →
      (∃ e, [Argument.dest a, .source b].findSome? (argumentFault s) = some e ∧ t = s.raise e) ∨
        ∃ d vb, a = .reg d ∧ resolve s b = .ok vb ∧ t = (s.writeReg d (f vb)).setIp (s.after 3) :=
    fun h => (unary_next h).symm
  have ofBinary : ∀ {f a b c}, binary f a b c s = .next t →
      (∃ e, [Argument.dest a, .source b, .source c].findSome? (argumentFault s) = some e ∧ t = s.raise e) ∨
        ∃ d vb vc, a = .reg d ∧ resolve s b = .ok vb ∧ resolve s c = .ok vc ∧
          t = (s.writeReg d (f vb vc)).setIp (s.after 4) :=
    fun h => (binary_next h).symm
  have ofSource : ∀ {o k}, withSource s o k = .next t →
      (∃ e, [Argument.source o].findSome? (argumentFault s) = some e ∧ t = s.raise e) ∨
        ∃ v, resolve s o = .ok v ∧ k v = .next t := by
    intro o k h
    rcases withSource_next h with h | ⟨e, he, rfl⟩
    · exact .inr h
    · exact .inl ⟨e, by simp [he], rfl⟩
  have ofDest : ∀ {d k}, withDest s d k = .next t →
      (∃ e, [Argument.dest d].findSome? (argumentFault s) = some e ∧ t = s.raise e) ∨
        ∃ r, d = .reg r ∧ k r = .next t := by
    intro d k h
    rcases withDest_next h with h | ⟨e, he, rfl⟩
    · exact .inr h
    · exact .inl ⟨e, by simp [he], rfl⟩
  cases i with
  | halt => exact .inr (by simpa [exec, execHalt, Effect] using h.symm)
  | noop => exact .inr (by simpa [exec, execNoop, Effect] using h.symm)
  | invalid w => exact .inr (by simpa [exec, execInvalid, Effect] using h.symm)
  | set a b => exact ofUnary h
  | not_ a b => exact ofUnary h
  | eq a b c => exact ofBinary h
  | gt a b c => exact ofBinary h
  | add a b c => exact ofBinary h
  | mult a b c => exact ofBinary h
  | and_ a b c => exact ofBinary h
  | or_ a b c => exact ofBinary h
  | jt a b => exact (jumpIf_next h).symm
  | jf a b => exact (jumpIf_next h).symm
  | push a => exact ofSource h
  | call a => exact ofSource h
  | jmp a =>
    refine (ofSource h).imp_right fun ⟨v, hv, h⟩ => ⟨v, hv, ?_⟩
    simpa using h.symm
  | out a =>
    refine (ofSource h).imp_right fun ⟨v, hv, h⟩ => ⟨v, hv, ?_⟩
    simpa using h.symm
  | pop a =>
    refine (ofDest h).imp_right fun ⟨d, hd, h⟩ => ⟨d, hd, ?_⟩
    split at h
    · exact .inl ⟨by simpa using ‹s.stack.getLast? = none›, by simpa using h.symm⟩
    · exact .inr ⟨_, ‹_›, complete_next.1 h⟩
  | in_ a =>
    refine (ofDest h).imp_right fun ⟨d, hd, h⟩ => ⟨d, hd, ?_⟩
    split at h
    · exact .inl ⟨_, ‹_›, complete_next.1 h⟩
    · exact .inr (.inl ⟨‹_›, by simpa using h.symm⟩)
    · exact .inr (.inr ⟨‹_›, by simpa using h.symm⟩)
  | ret =>
    refine .inr ?_
    simp only [exec, execRet] at h
    split at h
    · exact .inl ⟨by simpa using ‹s.stack.getLast? = none›, by simpa using h.symm⟩
    · exact .inr ⟨_, ‹_›, by simpa using h.symm⟩
  | rmem a b =>
    rcases withDest_next h with ⟨d, rfl, h⟩ | ⟨e, he, rfl⟩
    · rcases withSource_next h with ⟨vb, hb, h⟩ | ⟨e, he, rfl⟩
      · exact .inr ⟨d, vb, rfl, hb, complete_next.1 h⟩
      · exact .inl ⟨e, by simp [firstFault, Instr.arguments, List.findSome?_cons, he], rfl⟩
    · exact .inl ⟨e, by simp [firstFault, Instr.arguments, he], rfl⟩
  | wmem a b =>
    rcases withSource_next h with ⟨va, ha, h⟩ | ⟨e, he, rfl⟩
    · rcases withSource_next h with ⟨vb, hb, h⟩ | ⟨e, he, rfl⟩
      · exact .inr ⟨va, vb, ha, hb, by simpa using h.symm⟩
      · exact .inl ⟨e, by simp [firstFault, Instr.arguments, argumentFault_of_resolve ha, he], rfl⟩
    · exact .inl ⟨e, by simp [firstFault, Instr.arguments, he], rfl⟩
  | mod a b c =>
    rcases withDest_next h with ⟨d, rfl, h⟩ | ⟨e, he, rfl⟩
    · rcases withSource_next h with ⟨vb, hb, h⟩ | ⟨e, he, rfl⟩
      · rcases withSource_next h with ⟨vc, hc, h⟩ | ⟨e, he, rfl⟩
        · refine .inr ⟨d, vb, vc, rfl, hb, hc, ?_⟩
          split at h
          · exact .inr ⟨_, ‹_›, complete_next.1 h⟩
          · exact .inl ⟨‹_›, by simpa using h.symm⟩
        · exact .inl ⟨e, by simp [firstFault, Instr.arguments, List.findSome?_cons,
            argumentFault_of_resolve hb, he], rfl⟩
      · exact .inl ⟨e, by simp [firstFault, Instr.arguments, List.findSome?_cons, he], rfl⟩
    · exact .inl ⟨e, by simp [firstFault, Instr.arguments, he], rfl⟩

end Sys2Proof.Machine
end

