-- ==== Sys2Proof/Laws/PerInstr.lean ====
section
/-! SUPPORT. Laws for every instruction, one lemma per constructor. `WordCount`: a well-formed instruction has
as many words as the argument count of its opcode word says, and one more (30_encoding.md R70,
40_fetch_decode_step.md R94). -/

namespace Sys2Proof.Laws.WordCount

def Statement (i : Instr) : Prop :=
  i.wellFormed = true → (encode i).length = 1 + argc i.opcodeWord

theorem halt : Statement (.halt) := fun _ => rfl
theorem set (a : Destination) (b : Operand) : Statement (.set a b) := fun _ => rfl
theorem push (a : Operand) : Statement (.push a) := fun _ => rfl
theorem pop (a : Destination) : Statement (.pop a) := fun _ => rfl
theorem eq (a : Destination) (b c : Operand) : Statement (.eq a b c) := fun _ => rfl
theorem gt (a : Destination) (b c : Operand) : Statement (.gt a b c) := fun _ => rfl
theorem jmp (a : Operand) : Statement (.jmp a) := fun _ => rfl
theorem jt (a b : Operand) : Statement (.jt a b) := fun _ => rfl
theorem jf (a b : Operand) : Statement (.jf a b) := fun _ => rfl
theorem add (a : Destination) (b c : Operand) : Statement (.add a b c) := fun _ => rfl
theorem mult (a : Destination) (b c : Operand) : Statement (.mult a b c) := fun _ => rfl
theorem mod (a : Destination) (b c : Operand) : Statement (.mod a b c) := fun _ => rfl
theorem and_ (a : Destination) (b c : Operand) : Statement (.and_ a b c) := fun _ => rfl
theorem or_ (a : Destination) (b c : Operand) : Statement (.or_ a b c) := fun _ => rfl
theorem not_ (a : Destination) (b : Operand) : Statement (.not_ a b) := fun _ => rfl
theorem rmem (a : Destination) (b : Operand) : Statement (.rmem a b) := fun _ => rfl
theorem wmem (a b : Operand) : Statement (.wmem a b) := fun _ => rfl
theorem call (a : Operand) : Statement (.call a) := fun _ => rfl
theorem ret : Statement (.ret) := fun _ => rfl
theorem out (a : Operand) : Statement (.out a) := fun _ => rfl
theorem in_ (a : Destination) : Statement (.in_ a) := fun _ => rfl
theorem noop : Statement (.noop) := fun _ => rfl
theorem invalid (w : Word) : Statement (.invalid w) := fun h => by
  have hw : 22 ≤ w.toNat := of_decide_eq_true h
  show 1 = 1 + argc w
  rw [argc_invalid hw]

end Sys2Proof.Laws.WordCount
end

