-- ==== Sys2Proof/Tests/Slice0.lean ====
section
/-! SUPPORT. Tests. Every word and every expected value is written out from the spec: the opcode table of
30_encoding.md R76 and the vectors V-… of 95_test_vectors.md. One step each. Then, for every statement with
hypotheses, a state and operands that meet them together. -/

namespace Sys2Proof.Tests

open Sys2Proof.Machine

/-! Well-formedness: each check has a term it refuses, at the border it draws. -/

theorem test_source_32775_is_no_bad_word : (Operand.bad 32775).wellFormed = false := by decide
theorem test_source_32776_is_a_bad_word : (Operand.bad 32776).wellFormed = true := by decide
theorem test_dest_32767_is_a_bad_word : (Destination.bad 32767).wellFormed = true := by decide
theorem test_dest_32768_is_no_bad_word : (Destination.bad 32768).wellFormed = false := by decide
theorem test_dest_32775_is_no_bad_word : (Destination.bad 32775).wellFormed = false := by decide
theorem test_opcode_21_is_no_invalid_word : (Instr.invalid 21).wellFormed = false := by decide
theorem test_ill_formed_third_argument : (Instr.add (.reg 0) (.lit 1) (.bad 5)).wellFormed = false := by decide
theorem test_ill_formed_second_argument : (Instr.wmem (.lit 1) (.bad 5)).wellFormed = false := by decide
theorem test_ill_formed_destination : (Instr.pop (.bad 32769)).wellFormed = false := by decide

/-! Decoding, one word list per constructor. -/

theorem test_decode_halt : decode [0x0000, 0x0007] = .ok (.halt, [0x0007]) := rfl
theorem test_decode_set : decode [0x0001, 0x8001, 0x0004] = .ok (.set (.reg 1) (.lit 4), []) := rfl
theorem test_decode_push : decode [0x0002, 0x8007] = .ok (.push (.reg 7), []) := rfl
theorem test_decode_pop : decode [0x0003, 0x8002] = .ok (.pop (.reg 2), []) := rfl
theorem test_decode_eq : decode [0x0004, 0x8001, 0x0007, 0x8003] = .ok (.eq (.reg 1) (.lit 7) (.reg 3), []) := rfl
theorem test_decode_gt : decode [0x0005, 0x8002, 0x8003, 0x7FFF] = .ok (.gt (.reg 2) (.reg 3) (.lit 32767), []) := rfl
theorem test_decode_jmp : decode [0x0006, 0x00C8] = .ok (.jmp (.lit 200), []) := rfl
theorem test_decode_jt : decode [0x0007, 0x8000, 0x0032] = .ok (.jt (.reg 0) (.lit 50), []) := rfl
theorem test_decode_jf : decode [0x0008, 0x0001, 0x9C40] = .ok (.jf (.lit 1) (.bad 40000), []) := rfl
theorem test_decode_add : decode [0x0009, 0x8000, 0x8001, 0x0002] = .ok (.add (.reg 0) (.reg 1) (.lit 2), []) := rfl
theorem test_decode_mult : decode [0x000A, 0x8004, 0x0003, 0x8005] = .ok (.mult (.reg 4) (.lit 3) (.reg 5), []) := rfl
theorem test_decode_mod : decode [0x000B, 0x0003, 0x0005, 0x0000] = .ok (.mod (.bad 3) (.lit 5) (.lit 0), []) := rfl
theorem test_decode_and : decode [0x000C, 0x8000, 0x7F0F, 0x0FF0] = .ok (.and_ (.reg 0) (.lit 32527) (.lit 4080), []) := rfl
theorem test_decode_or : decode [0x000D, 0x8006, 0x8000, 0x0001] = .ok (.or_ (.reg 6) (.reg 0) (.lit 1), []) := rfl
theorem test_decode_not : decode [0x000E, 0x8000, 0x2AAA] = .ok (.not_ (.reg 0) (.lit 10922), []) := rfl
theorem test_decode_rmem : decode [0x000F, 0x8000, 0x0064] = .ok (.rmem (.reg 0) (.lit 100), []) := rfl
theorem test_decode_wmem : decode [0x0010, 0x8000, 0x002A] = .ok (.wmem (.reg 0) (.lit 42), []) := rfl
theorem test_decode_call : decode [0x0011, 0x8001] = .ok (.call (.reg 1), []) := rfl
theorem test_decode_ret : decode [0x0012] = .ok (.ret, []) := rfl
theorem test_decode_out : decode [0x0013, 0x0048] = .ok (.out (.lit 72), []) := rfl
theorem test_decode_in : decode [0x0014, 0x8000] = .ok (.in_ (.reg 0), []) := rfl
theorem test_decode_noop : decode [0x0015] = .ok (.noop, []) := rfl
theorem test_decode_invalid : decode [0x0016, 0x0001] = .ok (.invalid 22, [0x0001]) := rfl
theorem test_decode_last_opcode_word : decode [0xFFFF] = .ok (.invalid 65535, []) := rfl
theorem test_decode_source_8008 : decode [0x0002, 0x8008] = .ok (.push (.bad 32776), []) := rfl
theorem test_decode_short : decode [0x0009, 0x8000, 0x0001] = .error (.missingArgument 9 2) := rfl
theorem test_decode_empty : decode [] = .error .noOpcodeWord := rfl
theorem test_table_word : decodeTableWord 48 0x000780010001 = some (.set (.reg 1) (.lit 7)) := by decide
theorem test_table_word_short : decodeTableWord 16 0x12340002 = some (.push (.lit 0)) := by decide

/-! One step each. -/

/-- Reset, with these words from address `a` on and `ip` there. -/
def loadedAt (a : Nat) (ws : List Word) : State :=
  { State.reset with mem := storeWords State.reset.mem a ws, ip := BitVec.ofNat 16 a }

def loaded (ws : List Word) : State := loadedAt 0 ws

def withStack (ws : List Word) (stack : List Word) : State := { loaded ws with stack := stack }

def withInput (ws : List Word) (inp : InputChannel) : State := { loaded ws with inp := inp }

def withReg (ws : List Word) (r : RegIndex) (v : Word) : State := (loaded ws).writeReg r v

/-- What a reading of the state gives after one step; none if the step has no next state. -/
def after {α : Type} (s : State) (f : State → α) : Option α :=
  match step s with
  | .next t => some (f t)
  | .fault _ => none
  | .refused _ => none

def regIp (r : RegIndex) (s : State) : Word × Word := (s.readReg r, s.ip)
def ipRun (s : State) : Word × RunState := (s.ip, s.run)
def stackIp (s : State) : List Word × Word := (s.stack, s.ip)

theorem test_halt : after (loaded [0]) ipRun = some (1, .halted .haltOpcode 0) := by decide
theorem test_halt_last_cell : after (loadedAt 32767 [0]) ipRun = some (32768, .halted .haltOpcode 0) := by decide
theorem test_invalid : after (loaded [22]) ipRun = some (1, .halted .invalidOpcode 22) := by decide
theorem test_invalid_8000 : after (loaded [32768]) ipRun = some (1, .halted .invalidOpcode 32768) := by decide
theorem test_fetch_beyond : after (loadedAt 32768 []) ipRun = some (32768, .faulted .fetchOutOfRange 32768) := by
  decide
theorem test_fetch_argument : after (loadedAt 32767 [1]) ipRun = some (32767, .faulted .fetchOutOfRange 32768) := by
  decide
theorem test_set : after (withReg [1, 32775, 32768] 0 9) (regIp 7) = some (9, 3) := by decide
theorem test_set_bad_order : after (loaded [1, 4, 40000]) ipRun = some (0, .faulted .badDestination 4) := by decide
theorem test_eq : after (withReg [4, 32768, 32768, 32768] 0 9) (regIp 0) = some (1, 4) := by decide
theorem test_eq_differs : after (loaded [4, 32769, 0, 32767]) (regIp 1) = some (0, 4) := by decide
theorem test_gt_unsigned : after (loaded [5, 32770, 32767, 0]) (regIp 2) = some (1, 4) := by decide
theorem test_gt_strict : after (withReg [5, 32770, 3, 3] 2 7) (regIp 2) = some (0, 4) := by decide
theorem test_add : after (withReg [9, 32768, 32768, 32767] 0 4) (regIp 0) = some (3, 4) := by decide
theorem test_add_wraps : after (loaded [9, 32768, 32767, 32767]) (regIp 0) = some (32766, 4) := by decide
theorem test_mult : after (loaded [10, 32768, 1234, 5678]) (regIp 0) = some (27068, 4) := by decide
theorem test_mult_wraps : after (loaded [10, 32768, 32767, 32767]) (regIp 0) = some (1, 4) := by decide
theorem test_mod : after (loaded [11, 32768, 32767, 10]) (regIp 0) = some (7, 4) := by decide
theorem test_mod_zero : after (loaded [11, 32768, 5, 32769]) ipRun = some (0, .faulted .divideByZero 0) := by decide
theorem test_and : after (loaded [12, 32768, 32527, 4080]) (regIp 0) = some (3840, 4) := by decide
theorem test_or : after (loaded [13, 32768, 32527, 4080]) (regIp 0) = some (32767, 4) := by decide
theorem test_not : after (loaded [14, 32768, 10922]) (regIp 0) = some (21845, 3) := by decide
theorem test_not_zero : after (loaded [14, 32768, 0]) (regIp 0) = some (32767, 3) := by decide
theorem test_push : after (withReg [2, 32768] 0 300) stackIp = some ([300], 2) := by decide
theorem test_push_non_data :
    after (withReg [2, 32768] 0 32768) (fun t => (t.stack, t.run)) = some ([], .faulted .nonDataValue 32768) := by decide
theorem test_pop : after (withStack [3, 32769] [7, 9]) (fun t => (regIp 1 t, t.stack)) = some ((9, 2), [7]) := by decide
theorem test_pop_bad_destination : after (withStack [3, 5] [1]) (fun t => (t.stack, t.run)) =
    some ([1], .faulted .badDestination 5) := by decide
theorem test_call : after (loadedAt 10 [17, 100]) stackIp = some ([12], 100) := by decide
theorem test_call_last_cells : after (loadedAt 32766 [17, 5]) stackIp = some ([32768], 5) := by decide
theorem test_ret : after (withStack [18] [4, 32768]) stackIp = some ([4], 32768) := by decide
theorem test_ret_empty : after (loaded [18]) ipRun = some (1, .halted .emptyStackReturn 0) := by decide
theorem test_jmp : after (withReg [6, 32768] 0 300) State.ip = some 300 := by decide
theorem test_jt : after (loaded [7, 32767, 50]) State.ip = some 50 := by decide
theorem test_jt_not_taken : after (loaded [7, 0, 40000]) ipRun = some (0, .faulted .badOperand 40000) := by decide
theorem test_jf : after (loaded [8, 32768, 50]) State.ip = some 50 := by decide
theorem test_jf_not_taken : after (withReg [8, 32768, 50] 0 5) State.ip = some 3 := by decide
theorem test_rmem : after (loaded [15, 32768, 1]) (regIp 0) = some (32768, 3) := by decide
theorem test_wmem : after (withReg [16, 32768, 42] 0 100) (fun t => (regIp 0 t, t.mem.read 100)) =
    some ((100, 3), 42) := by decide
theorem test_wmem_itself : after (loaded [16, 0, 21]) (fun t => (t.mem.read 0, t.mem.read 2, t.ip)) =
    some (21, 21, 3) := by decide
theorem test_out : after (loaded [19, 328]) (fun t => (t.out, t.ip)) = some ([72], 2) := by decide
theorem test_out_register : after (withReg [19, 32768] 0 32767) State.out = some [255] := by decide
theorem test_in : after ((withInput [20, 32768] ⟨[255, 105], true⟩).writeReg 0 12345) (fun t => (regIp 0 t, t.inp.queue)) =
    some ((255, 2), [105]) := by decide
theorem test_in_exhausted : after (loaded [20, 32768]) ipRun = some (0, .faulted .inputExhausted 0) := by decide
theorem test_noop : after (loadedAt 32767 [21]) ipRun = some (32768, .running) := by decide

/-- 10_state.md R34: info 31:16, code 7:4, state 1:0. -/
theorem test_status_faulted : RunState.status (.faulted .badOperand 32776) = 0x80080012#32 := by decide
theorem test_status_halted : RunState.status (.halted .invalidOpcode 22) = 0x00160021#32 := by decide

/-- The first instruction after reset is the one that stands where the step fetches. -/
theorem test_with_fetch_word :
    after (State.reset.withFetchWord 64 0x7FFF000180000009) (regIp 0) = some (0, 4) := by decide

/-- V-LD-4: the odd last byte is dropped. -/
theorem test_load_odd : load [0x15, 0x00, 0x12] State.reset = .next { State.reset with mem := ⟨[(0, 21)]⟩ } := rfl

/-- Writing what an unlisted address reads as removes the entry. -/
theorem test_write_zero_removes : (Memory.write ⟨[(3, 7), (5, 9)]⟩ 3 0) = ⟨[(5, 9)]⟩ := by decide

/-! For each statement with hypotheses, a state and operands that meet all of them, and one for each clause at
the border of its range. -/

/-- A source whose value is the largest, one whose value is the smallest, and registers that hold them. -/
def edge : State := ((loaded []).writeReg 0 32767).writeReg 7 32768

theorem witness_EncodeThenDecodeGivesTheInstruction :
    (Instr.add (.bad 32767) (.bad 32776) (.lit 32767)).wellFormed = true ∧ (Instr.invalid 22).wellFormed = true := by
  decide

theorem witness_DecodeThenEncodeGivesTheWords : decode [16, 0, 32776, 5] = .ok (.wmem (.lit 0) (.bad 32776), [5]) := rfl

theorem witness_OpcodeWordDecidesTheLength : argc 9 ≤ [0, 0, (0 : Word)].length ∧ [0, (0 : Word)].length < argc 9 := by
  decide

theorem witness_OpcodesAbove21AreTheInvalidEncoding :
    22 ≤ (22 : Word).toNat ∧ decode [22, 1] = .ok (.invalid 22, [1]) := ⟨by decide, rfl⟩

theorem witness_StepRunsTheDecodedInstruction :
    ∃ s : State, s.run = .running ∧ s.ip.toNat + [(21 : Word)].length ≤ 32768 ∧ s.ip = 32767 ∧
      (∀ k (h : k < [(21 : Word)].length), s.mem.read (s.ip.toNat + k) = [(21 : Word)][k]) ∧
      decode [21] = .ok (.noop, []) := by
  refine ⟨loadedAt 32767 [21], rfl, by decide, by decide, fun k h => ?_, rfl⟩
  obtain rfl : k = 0 := by simpa using h
  exact (by decide : (loadedAt 32767 [21]).mem.read 32767 = 21)

theorem witness_FetchBeyondMemoryFaults :
    (∃ s : State, s.run = .running ∧ s.ip.toNat = 32768) ∧
      ∃ s : State, s.run = .running ∧ s.ip.toNat = 32767 ∧ 32767 < s.ip.toNat + argc s.opcodeAt :=
  ⟨⟨loadedAt 32768 [], rfl, by decide⟩, ⟨loadedAt 32767 [2], rfl, by decide, by decide⟩⟩

theorem witness_StepIsThePseudocode : State.reset.run = .running := rfl

/-- A machine that has stopped, with an instruction left where `ip` stands. -/
def stopped : State := (loaded [21]).setRun (.halted .haltOpcode 0)

theorem witness_MachineNotRunningNeverChanges : stopped.run ≠ .running := by decide

theorem inv_loaded (a : Nat) (ws : List Word) (h : a ≤ 32768) : (loadedAt a ws).Inv where
  memory := storeWords_wf rfl a ws
  ip := by simp only [loadedAt, BitVec.toNat_ofNat]; omega
  stack := by simp [loadedAt, State.reset, State.resetWith]
  room := by simp [loadedAt, State.reset, State.resetWith, Config.stackCapacity]
  run := rfl

theorem witness_StepKeepsTheInvariant :
    (loaded [16, 100, 42]).Inv ∧
      step (loaded [16, 100, 42]) =
        .next { loaded [16, 100, 42] with mem := (loaded [16, 100, 42]).mem.write 100 42, ip := 3 } :=
  ⟨inv_loaded 0 _ (by decide), rfl⟩

theorem witness_BootMeetsTheInvariant :
    boot (some 2) ⟨[], false⟩ [0x13, 0x00] =
      .next { State.resetWith (some 2) ⟨[], false⟩ with mem := ⟨[(0, 19)]⟩ } := rfl

theorem witness_ReachableStatesKeepTheirBounds :
    Reachable [0x0F, 0x00] { State.reset with mem := ⟨[(0, 15)]⟩ } := .boot none ⟨[], true⟩ _ rfl

theorem witness_ReachableStatesKeepTheirBounds_resolve :
    resolve edge (.reg 0) = .ok 32767 ∧
      ∃ t, Reachable [0xFF, 0xFF] t ∧ (t.mem.read 0).toNat = 65535 :=
  ⟨rfl, _, .boot none ⟨[], true⟩ _ rfl, by decide⟩

theorem witness_FirstOperandFaultEndsTheInstruction :
    firstFault edge (.mod (.reg 0) (.reg 7) (.lit 0)) = some ⟨.nonDataValue, 32775⟩ ∧
      firstFault edge (.set (.bad 32767) (.bad 32776)) = some ⟨.badDestination, 32767⟩ ∧
      firstFault edge (.jt (.lit 0) (.bad 65535)) = some ⟨.badOperand, 65535⟩ := by decide

theorem witness_ResolveFollowsTheOperandClass :
    (32767 : Word).toNat ≤ 32767 ∧
      ((32768 : Word).toNat = 32768 + (0 : RegIndex).val ∧ (edge.readReg 0).toNat ≤ 32767) ∧
      ((32775 : Word).toNat = 32768 + (7 : RegIndex).val ∧ 32767 < (edge.readReg 7).toNat) ∧
      32775 < (32776 : Word).toNat := by decide

theorem witness_DestIndexFollowsTheRawWord :
    (32768 : Word).toNat = 32768 + (0 : RegIndex).val ∧ (32775 : Word).toNat = 32768 + (7 : RegIndex).val ∧
      (32767 : Word).toNat < 32768 ∧ 32775 < (32776 : Word).toNat := by decide

theorem witness_FatalFaultChangesRunAlone :
    ∃ t, (loaded [11, 32768, 5, 0]).run = .running ∧ step (loaded [11, 32768, 5, 0]) = .next t ∧
      t.run = .faulted .divideByZero 0 := ⟨_, rfl, rfl, rfl⟩

theorem witness_FatalFaultsComeFromTheirCauses :
    ∃ t, edge.run = .running ∧ exec (.push (.reg 7)) edge = .next t ∧ t.run = .faulted .nonDataValue 32775 :=
  ⟨_, rfl, rfl, rfl⟩

theorem witness_GracefulHaltsComeFromTheirCauses :
    (loadedAt 32767 [22]).run = .running ∧ (loadedAt 32767 [22]).ip.toNat ≤ 32767 ∧
      haltCause (loadedAt 32767 [22]) .invalidOpcode 22 ∧ haltCause (loaded [18]) .emptyStackReturn 0 ∧
      haltCause (loaded [0]) .haltOpcode 0 ∧
      ∃ t, step (loaded [18]) = .next t ∧ t.run = .halted .emptyStackReturn 0 :=
  ⟨rfl, by decide, ⟨by decide, by decide⟩, ⟨by decide, rfl, rfl⟩, ⟨by decide, rfl⟩, _, rfl, rfl⟩

theorem witness_StatusShowsRun :
    State.reset.run = .running ∧ stopped.run = .halted .haltOpcode 0 ∧
      (stopped.raise ⟨.stackOverflow, 0⟩).run = .faulted .stackOverflow 0 := ⟨rfl, rfl, rfl⟩

/-- For SET, OUT, RMEM and every other one-source statement: a register and a literal. -/
theorem witness_SetWritesItsSource :
    sourceValue edge (.reg 0) = some 32767 ∧ sourceValue edge (.lit 0) = some 0 := by decide

theorem witness_RmemCopiesTheCell : sourceValue edge (.reg 0) = some 32767 := by decide
theorem witness_OutEmitsTheLowByte : sourceValue edge (.reg 0) = some 32767 := by decide

/-- For EQ, GT and every other two-source statement. -/
theorem witness_ComparisonsWriteOneOrZero :
    sourceValue edge (.reg 0) = some 32767 ∧ sourceValue edge (.reg 1) = some 0 := by decide

theorem witness_AddWritesTheSumModulo32768 :
    sourceValue edge (.reg 0) = some 32767 ∧ sourceValue edge (.lit 1) = some 1 := by decide

theorem witness_MultWritesTheProductModulo32768 :
    sourceValue edge (.lit 256) = some 256 ∧ sourceValue edge (.lit 128) = some 128 := by decide

theorem witness_ModWritesTheRemainderOrFaults :
    sourceValue edge (.reg 0) = some 32767 ∧ (sourceValue edge (.lit 1) = some 1 ∧ 1 ≠ 0) ∧
      sourceValue edge (.reg 1) = some 0 := by decide

theorem witness_BitwiseInstructionsWriteTheirResult :
    sourceValue edge (.reg 0) = some 32767 ∧ sourceValue edge (.lit 4080) = some 4080 := by decide

theorem witness_JumpsSetIp :
    sourceValue edge (.lit 0) = some 0 ∧ sourceValue edge (.reg 0) = some 32767 := by decide

/-- A stack of capacity 1, with and without room. -/
def small (stack : List Word) : State := { edge with stackCapacity := some 1, stack := stack }

theorem witness_PushAppendsItsSource :
    (sourceValue (small []) (.reg 0) = some 32767 ∧ (small []).stackCapacity ≠ some (small []).stack.length) ∧
      sourceValue (small [7]) (.reg 0) = some 32767 ∧ (small [7]).stackCapacity = some (small [7]).stack.length := by
  decide

theorem witness_CallPushesTheReturnAddress :
    (sourceValue edge (.lit 5) = some 5 ∧ edge.stackCapacity ≠ some edge.stack.length) ∧
      sourceValue (small [7]) (.lit 5) = some 5 ∧ (small [7]).stackCapacity = some (small [7]).stack.length := by
  decide

theorem witness_PopMovesTheTopEntry : (small [32768]).stack = [] ++ [32768] ∧ (small []).stack = [] := by decide
theorem witness_RetPopsIntoIpOrHalts : (small [32768]).stack = [] ++ [32768] ∧ (small []).stack = [] := by decide

theorem witness_WmemStoresOneCell :
    edge.mem.wf = true ∧ sourceValue edge (.reg 0) = some 32767 ∧ sourceValue edge (.lit 0) = some 0 := by decide

theorem witness_InReadsOneByte :
    (withInput [] ⟨[255], true⟩).inp.queue = 255 :: [] ∧
      ((withInput [] ⟨[], true⟩).inp.queue = [] ∧ (withInput [] ⟨[], true⟩).inp.closed = true) ∧
      (withInput [] ⟨[], false⟩).inp.queue = [] ∧ (withInput [] ⟨[], false⟩).inp.closed = false := by decide

theorem witness_OnlyWmemChangesMemory :
    ∃ t, (loaded [16, 32767, 5]).mem.wf = true ∧ step (loaded [16, 32767, 5]) = .next t ∧
      t.mem.read 32767 ≠ (loaded [16, 32767, 5]).mem.read 32767 := ⟨_, by decide, rfl, by decide⟩

/-- For every statement whose one hypothesis is that the step answers a next state. -/
theorem witness_StackChangesByOneEntry :
    ∃ t, step (loadedAt 32766 [17, 5]) = .next t ∧ t.stack ≠ (loadedAt 32766 [17, 5]).stack := ⟨_, rfl, by decide⟩

theorem witness_ChannelsMoveByOneByte :
    ∃ t, step (withInput [20, 32768] ⟨[97], false⟩) = .next t ∧ t.inp.queue = [] := ⟨_, rfl, rfl⟩

theorem witness_RegistersChangeOnlyAsDestination :
    ∃ t, step (withStack [3, 32775] [32768]) = .next t ∧
      t.readReg 7 ≠ (withStack [3, 32775] [32768]).readReg 7 ∧ 32767 < (t.readReg 7).toNat :=
  ⟨_, rfl, by decide, by decide⟩

theorem witness_IpAfterAStep :
    (∃ t, step (loaded [2, 32776]) = .next t ∧ t.run = .faulted .badOperand 32776) ∧
      (∃ t, step (loadedAt 32767 [0]) = .next t ∧ t.run = .halted .haltOpcode 0) ∧
      (∃ t, step (loadedAt 32767 [21]) = .next t ∧ t.run = .running ∧
        (loadedAt 32767 [21]).opcodeAt.toNat ∉ [6, 7, 8, 17, 18, 20]) ∧
      (∃ t, step (withInput [20, 32768] ⟨[], false⟩) = .next t ∧ t.run = .running ∧
        (withInput [20, 32768] ⟨[], false⟩).opcodeAt = 20) ∧
      (∃ t, step (loaded [17, 32767]) = .next t ∧ t.run = .running ∧ (loaded [17, 32767]).opcodeAt = 17) ∧
      (∃ t, step (loaded [8, 0, 32767]) = .next t ∧ t.run = .running ∧ (loaded [8, 0, 32767]).opcodeAt = 8) ∧
      ∃ t, step (withStack [18] [32768]) = .next t ∧ t.run = .running ∧ (withStack [18] [32768]).opcodeAt = 18 :=
  ⟨⟨_, rfl, rfl⟩, ⟨_, rfl, rfl⟩, ⟨_, rfl, rfl, by decide⟩, ⟨_, rfl, rfl, by decide⟩, ⟨_, rfl, rfl, by decide⟩,
    ⟨_, rfl, rfl, by decide⟩, ⟨_, rfl, rfl, by decide⟩⟩

theorem witness_OutputIsNeverRead : ∃ t, step (loaded [19, 328]) = .next t ∧ t.out = [72] := ⟨_, rfl, rfl⟩

theorem witness_StackBelowTheTopIsNeverRead :
    ∃ t, (withStack [18] [12]).stackCapacity = none ∧ (withStack [18] [12]).stack ≠ [] ∧
      step (withStack [18] [12]) = .next t ∧ t.stack = [] := ⟨_, rfl, by decide, rfl, rfl⟩

theorem witness_OnlyInReadsTheInput : ∃ t, (loaded [21]).opcodeAt ≠ 20 ∧ step (loaded [21]) = .next t :=
  ⟨_, by decide, rfl⟩

theorem witness_CallThenRetReturns :
    (loaded [17, 5, 0, 0, 0, 18]).run = .running ∧ (loaded [17, 5, 0, 0, 0, 18]).ip.toNat ≤ 32766 ∧
      (loaded [17, 5, 0, 0, 0, 18]).opcodeAt = 17 ∧
      sourceValue (loaded [17, 5, 0, 0, 0, 18]) (operandOf ((loaded [17, 5, 0, 0, 0, 18]).argumentAt 1)) = some 5 ∧
      (loaded [17, 5, 0, 0, 0, 18]).mem.read 5 = 18 ∧
      (loaded [17, 5, 0, 0, 0, 18]).stackCapacity ≠ some (loaded [17, 5, 0, 0, 0, 18]).stack.length := by decide

theorem witness_PushesThenPopsReverse :
    edge.stackCapacity = none ∧
      [.lit 1, .reg 0, .lit 3].map (sourceValue edge) = [1, 32767, 3].map some ∧
      [0, 7, (2 : RegIndex)].Nodup ∧ [0, 7, (2 : RegIndex)].length = [1, 32767, 3].length := by decide

theorem witness_NotTwiceRestoresTheValue : sourceValue edge (.lit 10922) = some 10922 := by decide

theorem witness_StoreIsSeenByTheNextFetch :
    (loadedAt 32764 [16, 32767, 22]).mem.wf = true ∧ (loadedAt 32764 [16, 32767, 22]).run = .running ∧
      (loadedAt 32764 [16, 32767, 22]).ip.toNat ≤ 32764 ∧ (loadedAt 32764 [16, 32767, 22]).opcodeAt = 16 ∧
      sourceValue (loadedAt 32764 [16, 32767, 22]) (operandOf ((loadedAt 32764 [16, 32767, 22]).argumentAt 1)) =
        some 32767 ∧
      sourceValue (loadedAt 32764 [16, 32767, 22]) (operandOf ((loadedAt 32764 [16, 32767, 22]).argumentAt 2)) =
        some 22 ∧
      32767 = (loadedAt 32764 [16, 32767, 22]).ip.toNat + 3 ∧ 22 ≤ 22 := by decide

theorem witness_WaitingInEndsByTheEnvironment : (withInput [20, 32768] ⟨[], false⟩).inp = ⟨[], false⟩ := rfl

theorem witness_BootLoadsLittleEndianPairs : [0x00, 0x80, (0x12 : Byte)].length / 2 ≤ 32768 := by decide
theorem witness_OddTrailingByteIsDropped : [0x15, (0x00 : Byte)].length % 2 = 0 := by decide

theorem witness_LoadRefusesLongImagesAndReloads :
    32768 < (List.replicate 65538 (0 : Byte)).length / 2 ∧ (loaded [21]) ≠ (loaded [21]).resetFrom (loaded [21]).inp :=
  ⟨by rw [List.length_replicate]; decide, by decide⟩

theorem witness_ResetGivesTheConstructedState :
    boot none ⟨[], true⟩ [0xFF, 0x7F, 0x12] = .next { State.reset with mem := ⟨[(0, 32767)]⟩ } ∧
      [0xFF, 0x7F, (0x12 : Byte)].length / 2 ≤ 1 := ⟨rfl, by decide⟩

end Sys2Proof.Tests
end

section
/-! The instruction the words at `ip` decode to: its opcode, its arguments and its length (30_encoding.md R70,
R76). -/

namespace Sys2Proof

/-- What the opcode word and the words after it are read as: `i`, with `left` unread. -/
structure ReadAs (w0 : Word) (ws : List Word) (i : Instr) (left : List Word) : Prop where
  opcode : w0 = i.opcodeWord
  wellFormed : i.wellFormed = true
  words : ws = i.arguments.map Argument.word ++ left

section
variable {w0 : Word} {ws left : List Word} {i : Instr}

/-! One lemma for each row shape of the decoder. -/

theorem readAs_of_decodeDSS {mk : Destination → Operand → Operand → Instr}
    (h : decodeDSS w0 mk ws = .ok (i, left)) (hop : ∀ a b c, w0 = (mk a b c).opcodeWord)
    (hargs : ∀ a b c, (mk a b c).arguments = [.dest a, .source b, .source c] := by intros; rfl)
    (hwf : ∀ a b c, (mk a b c).wellFormed = (a.wellFormed && b.wellFormed && c.wellFormed) := by intros; rfl) :
    ReadAs w0 ws i left := by
  obtain ⟨a, b, c, rfl, rfl⟩ := decode3_eq_ok.1 h
  exact ⟨hop _ _ _, by simp [hwf], by simp [hargs, Argument.word]⟩

theorem readAs_of_decodeDS {mk : Destination → Operand → Instr}
    (h : decodeDS w0 mk ws = .ok (i, left)) (hop : ∀ a b, w0 = (mk a b).opcodeWord)
    (hargs : ∀ a b, (mk a b).arguments = [.dest a, .source b] := by intros; rfl)
    (hwf : ∀ a b, (mk a b).wellFormed = (a.wellFormed && b.wellFormed) := by intros; rfl) :
    ReadAs w0 ws i left := by
  obtain ⟨a, b, rfl, rfl⟩ := decode2_eq_ok.1 h
  exact ⟨hop _ _, by simp [hwf], by simp [hargs, Argument.word]⟩

theorem readAs_of_decodeSS {mk : Operand → Operand → Instr}
    (h : decodeSS w0 mk ws = .ok (i, left)) (hop : ∀ a b, w0 = (mk a b).opcodeWord)
    (hargs : ∀ a b, (mk a b).arguments = [.source a, .source b] := by intros; rfl)
    (hwf : ∀ a b, (mk a b).wellFormed = (a.wellFormed && b.wellFormed) := by intros; rfl) :
    ReadAs w0 ws i left := by
  obtain ⟨a, b, rfl, rfl⟩ := decode2_eq_ok.1 h
  exact ⟨hop _ _, by simp [hwf], by simp [hargs, Argument.word]⟩

theorem readAs_of_decodeD {mk : Destination → Instr}
    (h : decodeD w0 mk ws = .ok (i, left)) (hop : ∀ a, w0 = (mk a).opcodeWord)
    (hargs : ∀ a, (mk a).arguments = [.dest a] := by intros; rfl)
    (hwf : ∀ a, (mk a).wellFormed = a.wellFormed := by intros; rfl) :
    ReadAs w0 ws i left := by
  obtain ⟨a, rfl, rfl⟩ := decode1_eq_ok.1 h
  exact ⟨hop _, by simp [hwf], by simp [hargs, Argument.word]⟩

theorem readAs_of_decodeS {mk : Operand → Instr}
    (h : decodeS w0 mk ws = .ok (i, left)) (hop : ∀ a, w0 = (mk a).opcodeWord)
    (hargs : ∀ a, (mk a).arguments = [.source a] := by intros; rfl)
    (hwf : ∀ a, (mk a).wellFormed = a.wellFormed := by intros; rfl) :
    ReadAs w0 ws i left := by
  obtain ⟨a, rfl, rfl⟩ := decode1_eq_ok.1 h
  exact ⟨hop _, by simp [hwf], by simp [hargs, Argument.word]⟩

theorem readAs_of_no_arguments {j : Instr}
    (h : (Except.ok (j, ws) : Decoded) = .ok (i, left)) (hop : w0 = j.opcodeWord) (hargs : j.arguments = [])
    (hwf : j.wellFormed = true) : ReadAs w0 ws i left := by
  cases h
  exact ⟨hop, hwf, by simp [hargs]⟩

/-- Whatever the decoder answers is read off the words it was given, and no word is lost. -/
theorem readAs_of_decode (h : decode (w0 :: ws) = .ok (i, left)) : ReadAs w0 ws i left := by
  rcases Nat.lt_or_ge w0.toNat 22 with hlt | hge
  · have hw : w0 = BitVec.ofNat 16 w0.toNat := by simp
    simp only [decode] at h
    generalize w0.toNat = n at hlt hw h
    interval_cases n
    · exact readAs_of_no_arguments h hw rfl rfl
    · exact readAs_of_decodeDS h fun _ _ => hw
    · exact readAs_of_decodeS h fun _ => hw
    · exact readAs_of_decodeD h fun _ => hw
    · exact readAs_of_decodeDSS h fun _ _ _ => hw
    · exact readAs_of_decodeDSS h fun _ _ _ => hw
    · exact readAs_of_decodeS h fun _ => hw
    · exact readAs_of_decodeSS h fun _ _ => hw
    · exact readAs_of_decodeSS h fun _ _ => hw
    · exact readAs_of_decodeDSS h fun _ _ _ => hw
    · exact readAs_of_decodeDSS h fun _ _ _ => hw
    · exact readAs_of_decodeDSS h fun _ _ _ => hw
    · exact readAs_of_decodeDSS h fun _ _ _ => hw
    · exact readAs_of_decodeDSS h fun _ _ _ => hw
    · exact readAs_of_decodeDS h fun _ _ => hw
    · exact readAs_of_decodeDS h fun _ _ => hw
    · exact readAs_of_decodeSS h fun _ _ => hw
    · exact readAs_of_decodeS h fun _ => hw
    · exact readAs_of_no_arguments h hw rfl rfl
    · exact readAs_of_decodeS h fun _ => hw
    · exact readAs_of_decodeD h fun _ => hw
    · exact readAs_of_no_arguments h hw rfl rfl
  · rw [decode_invalid hge] at h
    exact readAs_of_no_arguments h rfl rfl (decide_eq_true hge)

end

/-- Every argument of a well-formed instruction is well-formed. -/
theorem Instr.wellFormed_arguments {i : Instr} (h : i.wellFormed = true) :
    ∀ x ∈ i.arguments, x.wellFormed = true := by
  cases i <;> simp_all [Instr.wellFormed, Instr.arguments, Argument.wellFormed]

/-- A data value's word is at most 32767 (30_encoding.md R73). -/
theorem DataValue.word_le (v : DataValue) : (DataValue.word v).toNat ≤ 32767 := by
  rw [DataValue.toNat_word]
  omega

end Sys2Proof

namespace Sys2Proof.Machine

/-- The words from `ip` on are those of `i`, and they all lie in memory. -/
structure State.Holds (s : State) (i : Instr) : Prop where
  opcode : s.opcodeAt = i.opcodeWord
  wellFormed : i.wellFormed = true
  source : ∀ {k o}, i.arguments[k]? = some (.source o) → operandOf (s.argumentAt (k + 1)) = o
  dest : ∀ {k d}, i.arguments[k]? = some (.dest d) → destinationOf (s.argumentAt (k + 1)) = d
  count : i.arguments.length = argc s.opcodeAt
  bound : s.ip.toNat + 1 + i.arguments.length ≤ 32768

/-- The instruction a step executes is the one whose words stand at `ip`. -/
theorem holds_of_fetch {s : State} {i : Instr} {ws left : List Word} (hf : fetch s.mem s.ip.toNat = .ok ws)
    (hd : decode ws = .ok (i, left)) : s.Holds i := by
  obtain ⟨hws, hle⟩ := fetch_ok hf
  obtain ⟨j, hj⟩ := decode_of_fetch hf
  obtain ⟨rfl, rfl⟩ : i = j ∧ left = [] := by simpa [hd] using hj
  obtain ⟨hop, hwf, hargs⟩ := readAs_of_decode (hws ▸ hd)
  rw [List.append_nil] at hargs
  have hlen : i.arguments.length = argc s.opcodeAt := by
    simpa [State.opcodeAt] using (congrArg List.length hargs).symm
  have hword : ∀ {k x}, i.arguments[k]? = some x →
      x.wellFormed = true ∧ x.word = s.argumentAt (k + 1) := by
    intro k x hx
    obtain ⟨hk, hx'⟩ := List.getElem?_eq_some_iff.1 hx
    refine ⟨Instr.wellFormed_arguments hwf _ (List.mem_of_getElem? hx), ?_⟩
    have : (i.arguments.map Argument.word)[k]'(by simpa using hk) = x.word := by simp [hx']
    simp [← this, ← hargs, State.argumentAt, Nat.add_assoc, Nat.add_comm 1]
  refine ⟨hop, hwf, fun hx => ?_, fun hx => ?_, hlen, hlen ▸ hle⟩
  · obtain ⟨hx, hw⟩ := hword hx
    exact hw ▸ operandOf_word hx
  · obtain ⟨hx, hw⟩ := hword hx
    exact hw ▸ destinationOf_word hx

end Sys2Proof.Machine
end

section
/-! A step as one change of the state: what an instruction reads decides which change it makes (`State.plan`),
and what the change does to the state is said apart from it (`Change.apply`). -/

namespace Sys2Proof.Machine

/-- The changes a step can make to the state; `x` is where `ip` goes. -/
inductive Change where
  | wait
  | fault (e : FaultEvent)
  | halt (r : HaltReason) (info : Word)
  | goto (x : Word)
  | writeReg (d : RegIndex) (v x : Word)
  | writeMem (a : Nat) (v x : Word)
  | push (v x : Word)
  | pop (d : RegIndex) (w x : Word)
  | ret (w : Word)
  | emit (b : Byte) (x : Word)
  | input (d : RegIndex) (b : Byte) (x : Word)

/-- The state after the change. -/
def Change.apply (s : State) : Change → State
  | .wait => s
  | .fault e => s.raise e
  | .halt r info => s.halt r info
  | .goto x => s.setIp x
  | .writeReg d v x => (s.writeReg d v).setIp x
  | .writeMem a v x => (s.writeMem a v).setIp x
  | .push v x => (s.pushWord v).setIp x
  | .pop d w x => (s.dropTop.writeReg d w).setIp x
  | .ret w => s.dropTop.setIp w
  | .emit b x => (s.emit b).setIp x
  | .input d b x => (s.dropInput.writeReg d (b.setWidth 16)).setIp x

/-- The rest of an instruction after an argument, or the argument's fault. -/
def orFault {α : Type} (x : Except FaultEvent α) (k : α → Change) : Change :=
  match x with
  | .ok v => k v
  | .error e => .fault e

/-- The change made by `unary`. -/
def planUnary (f : DataValue → Word) (s : State) (a : Destination) (b : Operand) : Change :=
  orFault (destIndex a) fun d => orFault (resolve s b) fun vb => .writeReg d (f vb) (s.after 3)

/-- The change made by `binary`. -/
def planBinary (f : DataValue → DataValue → Word) (s : State) (a : Destination) (b c : Operand) : Change :=
  orFault (destIndex a) fun d => orFault (resolve s b) fun vb => orFault (resolve s c) fun vc =>
    .writeReg d (f vb vc) (s.after 4)

/-- The change made by `jumpIf`. -/
def planJump (taken : DataValue → Bool) (s : State) (a b : Operand) : Change :=
  orFault (resolve s a) fun va => orFault (resolve s b) fun vb =>
    .goto (if taken va then vb.word else s.after 3)

/-- The change made by `pushThen`. -/
def planPush (s : State) (v x : Word) : Change :=
  if s.stackFull then .fault ⟨.stackOverflow, 0⟩ else .push v x

/-- The change an instruction makes in state `s`. -/
def State.plan (s : State) : Instr → Change
  | .halt => .halt .haltOpcode 0
  | .set a b => planUnary DataValue.word s a b
  | .push a => orFault (resolve s a) fun va => planPush s va.word (s.after 2)
  | .pop a => orFault (destIndex a) fun d =>
    match s.stack.getLast? with
    | none => .fault ⟨.stackUnderflow, 0⟩
    | some w => .pop d w (s.after 2)
  | .eq a b c => planBinary Alu.eq s a b c
  | .gt a b c => planBinary Alu.gt s a b c
  | .jmp a => orFault (resolve s a) fun va => .goto va.word
  | .jt a b => planJump isNonzero s a b
  | .jf a b => planJump isZero s a b
  | .add a b c => planBinary Alu.add s a b c
  | .mult a b c => planBinary Alu.mult s a b c
  | .mod a b c => orFault (destIndex a) fun d => orFault (resolve s b) fun vb =>
    orFault (resolve s c) fun vc =>
      match Alu.mod vb vc with
      | some r => .writeReg d r (s.after 4)
      | none => .fault ⟨.divideByZero, 0⟩
  | .and_ a b c => planBinary Alu.and s a b c
  | .or_ a b c => planBinary Alu.or s a b c
  | .not_ a b => planUnary Alu.not s a b
  | .rmem a b => orFault (destIndex a) fun d => orFault (resolve s b) fun vb =>
    .writeReg d (s.mem.read vb.toNat) (s.after 3)
  | .wmem a b => orFault (resolve s a) fun va => orFault (resolve s b) fun vb =>
    .writeMem va.toNat vb.word (s.after 3)
  | .call a => orFault (resolve s a) fun va => planPush s (s.after 2) va.word
  | .ret =>
    match s.stack.getLast? with
    | none => .halt .emptyStackReturn 0
    | some w => .ret w
  | .out a => orFault (resolve s a) fun va => .emit (va.setWidth 8) (s.after 2)
  | .in_ a => orFault (destIndex a) fun d =>
    match s.inp.answer with
    | .byte b => .input d b (s.after 2)
    | .eof => .fault ⟨.inputExhausted, 0⟩
    | .notReady => .wait
  | .noop => .goto (s.after 1)
  | .invalid w => .halt .invalidOpcode w

/-- The change a step makes: none if the machine is not running, the fetch's fault, or the planned one. -/
def State.change (s : State) : Change :=
  match s.run with
  | .running =>
    match fetch s.mem s.ip.toNat with
    | .error a => .fault ⟨.fetchOutOfRange, BitVec.ofNat 16 a⟩
    | .ok ws =>
      match decode ws with
      | .ok (i, _) => s.plan i
      | .error _ => .wait
  | _ => .wait

/-! The plan is what `exec` does, and the change what `step` does. -/

theorem withSource_eq_apply {s : State} {o : Operand} {k : DataValue → Result} {k' : DataValue → Change}
    (h : ∀ v, k v = .next ((k' v).apply s)) :
    withSource s o k = .next ((orFault (resolve s o) k').apply s) := by
  unfold withSource orFault
  cases resolve s o with
  | ok v => exact h v
  | error e => rfl

theorem withDest_eq_apply {s : State} {a : Destination} {k : RegIndex → Result} {k' : RegIndex → Change}
    (h : ∀ d, k d = .next ((k' d).apply s)) :
    withDest s a k = .next ((orFault (destIndex a) k').apply s) := by
  unfold withDest orFault
  cases destIndex a with
  | ok d => exact h d
  | error e => rfl

theorem unary_eq_apply (f : DataValue → Word) (a : Destination) (b : Operand) (s : State) :
    unary f a b s = .next ((planUnary f s a b).apply s) :=
  withDest_eq_apply fun _ => withSource_eq_apply fun _ => rfl

theorem binary_eq_apply (f : DataValue → DataValue → Word) (a : Destination) (b c : Operand) (s : State) :
    binary f a b c s = .next ((planBinary f s a b c).apply s) :=
  withDest_eq_apply fun _ => withSource_eq_apply fun _ => withSource_eq_apply fun _ => rfl

theorem jumpIf_eq_apply (taken : DataValue → Bool) (a b : Operand) (s : State) :
    jumpIf taken a b s = .next ((planJump taken s a b).apply s) :=
  withSource_eq_apply fun _ => withSource_eq_apply fun _ => rfl

theorem pushThen_eq_apply (s : State) (v x : Word) : pushThen s v x = .next ((planPush s v x).apply s) := by
  unfold pushThen planPush
  split <;> rfl

/-- Every instruction answers the state its planned change makes. -/
theorem exec_eq_apply (i : Instr) (s : State) : exec i s = .next ((s.plan i).apply s) := by
  cases i with
  | halt => rfl
  | noop => rfl
  | invalid w => rfl
  | set a b => exact unary_eq_apply _ a b s
  | not_ a b => exact unary_eq_apply _ a b s
  | eq a b c => exact binary_eq_apply _ a b c s
  | gt a b c => exact binary_eq_apply _ a b c s
  | add a b c => exact binary_eq_apply _ a b c s
  | mult a b c => exact binary_eq_apply _ a b c s
  | and_ a b c => exact binary_eq_apply _ a b c s
  | or_ a b c => exact binary_eq_apply _ a b c s
  | jt a b => exact jumpIf_eq_apply _ a b s
  | jf a b => exact jumpIf_eq_apply _ a b s
  | push a => exact withSource_eq_apply fun _ => pushThen_eq_apply s _ _
  | call a => exact withSource_eq_apply fun _ => pushThen_eq_apply s _ _
  | jmp a => exact withSource_eq_apply fun _ => rfl
  | out a => exact withSource_eq_apply fun _ => rfl
  | rmem a b => exact withDest_eq_apply fun _ => withSource_eq_apply fun _ => rfl
  | wmem a b => exact withSource_eq_apply fun _ => withSource_eq_apply fun _ => rfl
  | mod a b c =>
    refine withDest_eq_apply fun _ => withSource_eq_apply fun vb => withSource_eq_apply fun vc => ?_
    cases Alu.mod vb vc <;> rfl
  | pop a =>
    refine withDest_eq_apply fun _ => ?_
    cases s.stack.getLast? <;> rfl
  | in_ a =>
    refine withDest_eq_apply fun _ => ?_
    cases s.inp.answer <;> rfl
  | ret =>
    simp only [exec, execRet, State.plan]
    cases s.stack.getLast? <;> rfl

section
variable {s : State}

theorem change_of_not_running (hr : s.run ≠ .running) : s.change = .wait := by
  unfold State.change
  split
  · contradiction
  · rfl

theorem change_of_fetch_error (hr : s.run = .running) {a : Nat} (hf : fetch s.mem s.ip.toNat = .error a) :
    s.change = .fault ⟨.fetchOutOfRange, BitVec.ofNat 16 a⟩ := by
  simp only [State.change, hr, hf]

theorem change_of_fetch_ok (hr : s.run = .running) {ws left : List Word} {i : Instr}
    (hf : fetch s.mem s.ip.toNat = .ok ws) (hd : decode ws = .ok (i, left)) : s.change = s.plan i := by
  simp only [State.change, hr, hf, hd]

/-- Where the change of a step comes from: the machine is not running, the fetch meets the first address beyond
memory, or the instruction at `ip` is executed. -/
theorem change_cases (s : State) :
    (s.run ≠ .running ∧ s.change = .wait) ∨
      (s.run = .running ∧
        s.change = .fault ⟨.fetchOutOfRange, BitVec.ofNat 16 (max s.ip.toNat 32768)⟩) ∨
      ∃ i, s.run = .running ∧ s.Holds i ∧ s.change = s.plan i := by
  by_cases hr : s.run = .running
  · rcases hf : fetch s.mem s.ip.toNat with a | ws
    · obtain ⟨-, rfl⟩ := fetch_error hf
      exact .inr (.inl ⟨hr, change_of_fetch_error hr hf⟩)
    · obtain ⟨i, hd⟩ := decode_of_fetch hf
      exact .inr (.inr ⟨i, hr, holds_of_fetch hf hd, change_of_fetch_ok hr hf hd⟩)
  · exact .inl ⟨hr, change_of_not_running hr⟩

/-- Every step answers the state its change makes. -/
theorem step_eq_apply (s : State) : step s = .next (s.change.apply s) := by
  by_cases hr : s.run = .running
  · rw [step_of_running hr]
    rcases hf : fetch s.mem s.ip.toNat with a | ws
    · rw [change_of_fetch_error hr hf]
      simp only [stepRunning, hf, fetchFault, Change.apply]
    · obtain ⟨i, hd, hs⟩ := stepRunning_of_fetch hf
      rw [hs, change_of_fetch_ok hr hf hd, exec_eq_apply]
  · rw [step_of_not_running hr, change_of_not_running hr]
    rfl

/-- The state a step answers is the one its change makes. -/
theorem eq_apply_of_step {t : State} (h : step s = .next t) : t = s.change.apply s := by
  simpa [step_eq_apply] using h.symm

end

end Sys2Proof.Machine
end

section
/-! Which instruction plans which change, and with which values. -/

namespace Sys2Proof.Machine

/-! A result of the ALU is a data value (10_state.md R22). -/

theorem Alu.add_le (b c : DataValue) : (Alu.add b c).toNat ≤ 32767 := by
  simp only [Alu.add, Config.modulus, BitVec.toNat_ofNat]
  omega

theorem Alu.mult_le (b c : DataValue) : (Alu.mult b c).toNat ≤ 32767 := by
  simp only [Alu.mult, Config.modulus, BitVec.toNat_ofNat]
  omega

theorem Alu.mod_le {b c : DataValue} {r : Word} (h : Alu.mod b c = some r) : r.toNat ≤ 32767 := by
  unfold Alu.mod at h
  split at h
  · cases h
  · obtain rfl := Option.some.inj h
    have := Nat.mod_le b.toNat c.toNat
    simp only [BitVec.toNat_ofNat]
    omega

theorem Alu.and_le (b c : DataValue) : (Alu.and b c).toNat ≤ 32767 := by
  have := Nat.and_le_left (n := b.toNat) (m := c.toNat)
  simp only [Alu.and, BitVec.toNat_and, DataValue.toNat_word]
  omega

theorem Alu.or_le (b c : DataValue) : (Alu.or b c).toNat ≤ 32767 := by
  have := Nat.or_lt_two_pow b.isLt c.isLt
  simp only [Alu.or, BitVec.toNat_or, DataValue.toNat_word]
  omega

theorem Alu.not_le (b : DataValue) : (Alu.not b).toNat ≤ 32767 := by
  simp only [Alu.not, BitVec.toNat_and]
  exact Nat.and_le_right

theorem truthWord_le (b : Bool) : (truthWord b).toNat ≤ 32767 := by cases b <;> decide

/-- The faults an instruction can raise after its arguments are checked (60_exceptions.md R175). -/
def effectFaults : List FaultEvent :=
  [⟨.stackUnderflow, 0⟩, ⟨.inputExhausted, 0⟩, ⟨.divideByZero, 0⟩, ⟨.stackOverflow, 0⟩]

/-- The opcodes that write a register and touch neither the stack nor the input (10_state.md R21). -/
def plainWriters : List Nat := [1, 4, 5, 9, 10, 11, 12, 13, 14, 15]

/-- What it takes for instruction `i` to make a change in state `s`, with the values it makes it with: among the
plain writers RMEM alone (opcode 15) can write a word that is no data value. -/
def Performs (s : State) (i : Instr) : Change → Prop
  | .wait => ∃ d, i = .in_ (.reg d)
  | .fault e => (∃ x ∈ i.arguments, argumentFault s x = some e) ∨ e ∈ effectFaults
  | .halt .haltOpcode info => i = .halt ∧ info = 0
  | .halt .emptyStackReturn info => i = .ret ∧ s.stack = [] ∧ info = 0
  | .halt .invalidOpcode info => i = .invalid info
  | .goto x => (i = .noop ∧ x = s.after 1) ∨
      (∃ a v, i = .jmp a ∧ resolve s a = .ok v ∧ x = v.word) ∨
      ∃ a b va vb, resolve s a = .ok va ∧ resolve s b = .ok vb ∧
        ((i = .jt a b ∧ x = if isNonzero va then vb.word else s.after 3) ∨
          i = .jf a b ∧ x = if isZero va then vb.word else s.after 3)
  | .writeReg d v x => i.arguments[0]? = some (.dest (.reg d)) ∧
      i.opcodeWord.toNat ∈ plainWriters ∧
      (v.toNat ≤ 32767 ∨ i.opcodeWord = 15) ∧ x = s.after (1 + i.arguments.length)
  | .writeMem a v x => ∃ o p u w, i = .wmem o p ∧ resolve s o = .ok u ∧ resolve s p = .ok w ∧
      a = u.toNat ∧ v = w.word ∧ x = s.after 3
  | .push v x => s.stackCapacity ≠ some s.stack.length ∧ ∃ a u, resolve s a = .ok u ∧
      ((i = .push a ∧ v = u.word ∧ x = s.after 2) ∨ i = .call a ∧ v = s.after 2 ∧ x = u.word)
  | .pop d w x => i = .pop (.reg d) ∧ s.stack.getLast? = some w ∧ x = s.after 2
  | .ret w => i = .ret ∧ s.stack.getLast? = some w
  | .emit b x => ∃ a v, i = .out a ∧ resolve s a = .ok v ∧ b = v.setWidth 8 ∧ x = s.after 2
  | .input d b x => i = .in_ (.reg d) ∧ (∃ rest, s.inp.queue = b :: rest) ∧ x = s.after 2

section
variable {s : State} {i : Instr}

theorem performs_orFault_source {o : Operand} {k : DataValue → Change} (ho : .source o ∈ i.arguments)
    (hk : ∀ v, resolve s o = .ok v → Performs s i (k v)) : Performs s i (orFault (resolve s o) k) := by
  unfold orFault
  split
  · exact hk _ ‹_›
  · exact .inl ⟨_, ho, resolve_eq_error.1 ‹_›⟩

theorem performs_orFault_dest {a : Destination} {k : RegIndex → Change} (ha : .dest a ∈ i.arguments)
    (hk : ∀ d, a = .reg d → Performs s i (k d)) : Performs s i (orFault (destIndex a) k) := by
  cases a with
  | reg d => exact hk d rfl
  | bad w => exact .inl ⟨_, ha, rfl⟩

theorem performs_planUnary {f : DataValue → Word} {a : Destination} {b : Operand}
    (hargs : i.arguments = [.dest a, .source b]) (hf : ∀ v, (f v).toNat ≤ 32767)
    (hop : i.opcodeWord.toNat ∈ plainWriters := by simp [plainWriters, Instr.opcodeWord]) :
    Performs s i (planUnary f s a b) := by
  refine performs_orFault_dest (by simp [hargs]) fun d hd => ?_
  refine performs_orFault_source (by simp [hargs]) fun v _ => ?_
  exact ⟨by simp [hargs, hd], hop, .inl (hf v), by simp [hargs]⟩

theorem performs_planBinary {f : DataValue → DataValue → Word} {a : Destination} {b c : Operand}
    (hargs : i.arguments = [.dest a, .source b, .source c]) (hf : ∀ u v, (f u v).toNat ≤ 32767)
    (hop : i.opcodeWord.toNat ∈ plainWriters := by simp [plainWriters, Instr.opcodeWord]) :
    Performs s i (planBinary f s a b c) := by
  refine performs_orFault_dest (by simp [hargs]) fun d hd => ?_
  refine performs_orFault_source (by simp [hargs]) fun u _ => ?_
  refine performs_orFault_source (by simp [hargs]) fun v _ => ?_
  exact ⟨by simp [hargs, hd], hop, .inl (hf u v), by simp [hargs]⟩

theorem performs_planJump {taken : DataValue → Bool} {a b : Operand}
    (hargs : i.arguments = [.source a, .source b])
    (hgoto : ∀ va vb, resolve s a = .ok va → resolve s b = .ok vb →
      Performs s i (.goto (if taken va then vb.word else s.after 3))) :
    Performs s i (planJump taken s a b) := by
  refine performs_orFault_source (by simp [hargs]) fun va ha => ?_
  exact performs_orFault_source (by simp [hargs]) fun vb hb => hgoto va vb ha hb

theorem performs_planPush {v x : Word}
    (h : ∃ a u, resolve s a = .ok u ∧
      ((i = .push a ∧ v = u.word ∧ x = s.after 2) ∨ i = .call a ∧ v = s.after 2 ∧ x = u.word)) :
    Performs s i (planPush s v x) := by
  unfold planPush
  split
  · exact .inr (by decide)
  · exact ⟨fun hc => ‹¬ _› (s.stackFull_iff.2 hc), h⟩

/-- Every instruction performs the change it plans. -/
theorem performs_plan (s : State) (i : Instr) : Performs s i (s.plan i) := by
  cases i with
  | halt => exact ⟨rfl, rfl⟩
  | invalid w => exact rfl
  | noop => exact .inl ⟨rfl, rfl⟩
  | set a b => exact performs_planUnary rfl DataValue.word_le
  | not_ a b => exact performs_planUnary rfl Alu.not_le
  | eq a b c => exact performs_planBinary rfl fun _ _ => truthWord_le _
  | gt a b c => exact performs_planBinary rfl fun _ _ => truthWord_le _
  | add a b c => exact performs_planBinary rfl Alu.add_le
  | mult a b c => exact performs_planBinary rfl Alu.mult_le
  | and_ a b c => exact performs_planBinary rfl Alu.and_le
  | or_ a b c => exact performs_planBinary rfl Alu.or_le
  | mod a b c =>
    refine performs_orFault_dest (.head _) fun d hd => ?_
    refine performs_orFault_source (.tail _ (.head _)) fun u _ => ?_
    refine performs_orFault_source (.tail _ (.tail _ (.head _))) fun v _ => ?_
    split
    · exact ⟨hd ▸ rfl, by simp [plainWriters, Instr.opcodeWord], .inl (Alu.mod_le ‹_›), rfl⟩
    · exact .inr (by decide)
  | rmem a b =>
    refine performs_orFault_dest (.head _) fun d hd => ?_
    refine performs_orFault_source (.tail _ (.head _)) fun u _ => ?_
    exact ⟨hd ▸ rfl, by simp [plainWriters, Instr.opcodeWord], .inr rfl, rfl⟩
  | wmem a b =>
    refine performs_orFault_source (.head _) fun u hu => ?_
    refine performs_orFault_source (.tail _ (.head _)) fun w hw => ?_
    exact ⟨a, b, u, w, rfl, hu, hw, rfl, rfl, rfl⟩
  | push a =>
    refine performs_orFault_source (.head _) fun u hu => ?_
    exact performs_planPush ⟨a, u, hu, .inl ⟨rfl, rfl, rfl⟩⟩
  | call a =>
    refine performs_orFault_source (.head _) fun u hu => ?_
    exact performs_planPush ⟨a, u, hu, .inr ⟨rfl, rfl, rfl⟩⟩
  | pop a =>
    refine performs_orFault_dest (.head _) fun d hd => ?_
    split
    · exact .inr (by decide)
    · exact ⟨hd ▸ rfl, ‹_›, rfl⟩
  | ret =>
    rcases h : s.stack.getLast? with _ | w
    · simp [State.plan, Performs, List.getLast?_eq_none_iff.1 h]
    · simp [State.plan, Performs, h]
  | jmp a => exact performs_orFault_source (.head _) fun v hv => .inr (.inl ⟨a, v, rfl, hv, rfl⟩)
  | jt a b =>
    exact performs_planJump rfl fun u w hu hw => .inr (.inr ⟨a, b, u, w, hu, hw, .inl ⟨rfl, rfl⟩⟩)
  | jf a b =>
    exact performs_planJump rfl fun u w hu hw => .inr (.inr ⟨a, b, u, w, hu, hw, .inr ⟨rfl, rfl⟩⟩)
  | out a => exact performs_orFault_source (.head _) fun v hv => ⟨a, v, rfl, hv, rfl, rfl⟩
  | in_ a =>
    refine performs_orFault_dest (.head _) fun d hd => ?_
    split
    · exact ⟨hd ▸ rfl, InputChannel.answer_byte.1 ‹_›, rfl⟩
    · exact .inr (by decide)
    · exact ⟨d, hd ▸ rfl⟩

end

end Sys2Proof.Machine
end

section
/-! The invariant: which updates keep it, and that a step makes only such updates. -/

namespace Sys2Proof.Machine

/-- The address after an instruction whose words lie in memory (10_state.md R28). -/
theorem State.after_toNat {s : State} {n : Nat} (h : s.ip.toNat + n ≤ 32768) :
    (s.after n).toNat = s.ip.toNat + n := by
  simp only [State.after, BitVec.toNat_add, BitVec.toNat_ofNat]
  omega

namespace State.Inv

variable {s : State}

theorem setIp (h : s.Inv) {x : Word} (hx : x.toNat ≤ 32768) : (s.setIp x).Inv :=
  ⟨h.memory, hx, h.stack, h.room, h.run⟩

theorem setRun (h : s.Inv) {r : RunState} (hr : r.legal = true) : (s.setRun r).Inv :=
  ⟨h.memory, h.ip, h.stack, h.room, hr⟩

theorem raise (h : s.Inv) {e : FaultEvent} (he : (RunState.faulted e.kind e.info).legal = true) :
    (s.raise e).Inv := h.setRun he

theorem halt (h : s.Inv) {r : HaltReason} {info : Word} (hip : s.ip.toNat + 1 ≤ 32768)
    (hr : (RunState.halted r info).legal = true) : (s.halt r info).Inv :=
  (h.setIp (by rw [State.after_toNat hip]; exact hip)).setRun hr

theorem writeReg (h : s.Inv) (d : RegIndex) (v : Word) : (s.writeReg d v).Inv :=
  ⟨h.memory, h.ip, h.stack, h.room, h.run⟩

theorem writeMem (h : s.Inv) (a : Nat) (v : Word) : (s.writeMem a v).Inv :=
  ⟨Memory.wf_write h.memory a v, h.ip, h.stack, h.room, h.run⟩

theorem emit (h : s.Inv) (b : Byte) : (s.emit b).Inv := ⟨h.memory, h.ip, h.stack, h.room, h.run⟩

theorem dropInput (h : s.Inv) : s.dropInput.Inv := ⟨h.memory, h.ip, h.stack, h.room, h.run⟩

theorem pushWord (h : s.Inv) {v : Word} (hv : v.toNat ≤ 32768)
    (hroom : s.stackCapacity ≠ some s.stack.length) : (s.pushWord v).Inv where
  memory := h.memory
  ip := h.ip
  stack w hw := by
    rcases List.mem_append.1 hw with hw | hw
    · exact h.stack w hw
    · rwa [List.mem_singleton.1 hw]
  room k hk := by
    have hle := h.room k hk
    have hne : k ≠ s.stack.length := fun he => hroom (he ▸ hk)
    simp only [pushWord_stack, List.length_append, List.length_singleton]
    omega
  run := h.run

theorem dropTop (h : s.Inv) : s.dropTop.Inv where
  memory := h.memory
  ip := h.ip
  stack w hw := h.stack w (List.mem_of_mem_dropLast hw)
  room k hk := by
    have := h.room k hk
    simp only [dropTop_stack, List.length_dropLast]
    omega
  run := h.run

theorem top_le (h : s.Inv) {w : Word} (hw : s.stack.getLast? = some w) : w.toNat ≤ 32768 :=
  h.stack w (List.mem_of_getLast? hw)

end State.Inv

/-- The fault of a well-formed argument records an info word of its row in 60_exceptions.md R175. -/
theorem legal_of_argumentFault {s : State} {x : Argument} {e : FaultEvent} (hx : x.wellFormed = true)
    (h : argumentFault s x = some e) : (RunState.faulted e.kind e.info).legal = true := by
  match x with
  | .source (.lit _) => cases h
  | .source (.reg r) =>
    rw [argumentFault_reg] at h
    split at h
    · obtain rfl := Option.some.inj h
      simp only [RunState.legal, regWord_toNat, decide_eq_true_eq]
      omega
    · cases h
  | .source (.bad w) =>
    obtain rfl := Option.some.inj h
    exact hx
  | .dest (.reg _) => cases h
  | .dest (.bad w) =>
    obtain rfl := Option.some.inj h
    exact hx

theorem legal_of_effectFaults {e : FaultEvent} (h : e ∈ effectFaults) :
    (RunState.faulted e.kind e.info).legal = true := by
  simp only [effectFaults, List.mem_cons, List.not_mem_nil, or_false] at h
  rcases h with rfl | rfl | rfl | rfl <;> rfl

/-- The fetch's fault on a state that meets the invariant records 32768 (40_fetch_decode_step.md R91). -/
theorem legal_of_fetchFault {s : State} (h : s.Inv) :
    (RunState.faulted .fetchOutOfRange (BitVec.ofNat 16 (max s.ip.toNat 32768))).legal = true := by
  rw [max_eq_right h.ip]
  rfl

/-- The change an instruction at `ip` performs keeps the invariant. -/
theorem inv_apply {s : State} {i : Instr} {c : Change} (h : s.Inv) (hi : s.Holds i) (hc : Performs s i c) :
    (c.apply s).Inv := by
  have hbound := hi.bound
  have hnext : ∀ {n}, n ≤ 1 + i.arguments.length → (s.after n).toNat ≤ 32768 := fun hn => by
    rw [State.after_toNat (by omega)]
    omega
  have hvalue : ∀ v : DataValue, v.word.toNat ≤ 32768 := fun v => (DataValue.word_le v).trans (by decide)
  cases c with
  | wait => exact h
  | fault e =>
    rcases hc with ⟨x, hx, he⟩ | he
    · exact h.raise (legal_of_argumentFault (Instr.wellFormed_arguments hi.wellFormed x hx) he)
    · exact h.raise (legal_of_effectFaults he)
  | halt r info =>
    refine h.halt (by omega) ?_
    cases r with
    | haltOpcode => exact hc.2 ▸ rfl
    | emptyStackReturn => exact hc.2.2 ▸ rfl
    | invalidOpcode =>
      obtain rfl : i = .invalid info := hc
      exact hi.wellFormed
  | goto x =>
    refine h.setIp ?_
    rcases hc with ⟨rfl, rfl⟩ | ⟨a, v, rfl, -, rfl⟩ | ⟨a, b, va, vb, -, -, ⟨rfl, rfl⟩ | ⟨rfl, rfl⟩⟩
    · exact hnext (by decide)
    · exact hvalue v
    · split
      · exact hvalue vb
      · exact hnext (by simp [Instr.arguments])
    · split
      · exact hvalue vb
      · exact hnext (by simp [Instr.arguments])
  | writeReg d v x =>
    obtain ⟨-, -, -, rfl⟩ := hc
    exact (h.writeReg d v).setIp (hnext le_rfl)
  | writeMem a v x =>
    obtain ⟨o, p, u, w, rfl, -, -, rfl, rfl, rfl⟩ := hc
    exact (h.writeMem _ _).setIp (hnext (by simp [Instr.arguments]))
  | push v x =>
    obtain ⟨hroom, a, u, -, ⟨rfl, rfl, rfl⟩ | ⟨rfl, rfl, rfl⟩⟩ := hc
    · exact (h.pushWord (hvalue u) hroom).setIp (hnext (by simp [Instr.arguments]))
    · exact (h.pushWord (hnext (by simp [Instr.arguments])) hroom).setIp (hvalue u)
  | pop d w x =>
    obtain ⟨rfl, -, rfl⟩ := hc
    exact (h.dropTop.writeReg d w).setIp (hnext (by simp [Instr.arguments]))
  | ret w => exact h.dropTop.setIp (h.top_le hc.2)
  | emit b x =>
    obtain ⟨a, v, rfl, -, -, rfl⟩ := hc
    exact (h.emit b).setIp (hnext (by simp [Instr.arguments]))
  | input d b x =>
    obtain ⟨rfl, -, rfl⟩ := hc
    exact (h.dropInput.writeReg d _).setIp (hnext (by simp [Instr.arguments]))

/-- A step keeps the invariant. -/
theorem inv_step {s t : State} (h : s.Inv) (hs : step s = .next t) : t.Inv := by
  rw [eq_apply_of_step hs]
  rcases change_cases s with ⟨-, hc⟩ | ⟨-, hc⟩ | ⟨i, -, hi, hc⟩ <;> rw [hc]
  · exact h
  · exact h.raise (legal_of_fetchFault h)
  · exact inv_apply h hi (performs_plan s i)

/-- Settles O12: a step's change keeps the invariant, whichever instruction makes it. -/
theorem stepKeepsTheInvariant : Obligations.StepKeepsTheInvariant :=
  fun _ _ h hs => inv_step h hs

/-- The state of reset meets the invariant. -/
theorem inv_resetWith (capacity : Option Nat) (inp : InputChannel) : (State.resetWith capacity inp).Inv where
  memory := rfl
  ip := Nat.zero_le _
  stack _ hw := absurd hw List.not_mem_nil
  room _ _ := Nat.zero_le _
  run := rfl

/-- Settles O11: every reset state is `State.resetWith` of a capacity and an input channel. -/
theorem resetMeetsTheInvariant : Obligations.ResetMeetsTheInvariant :=
  ⟨inv_resetWith _ _, fun s inp => inv_resetWith s.stackCapacity inp⟩

end Sys2Proof.Machine
end

section
/-! What a step can change, and by which instruction. -/

namespace Sys2Proof.Machine

/-- Settles O9: by induction on the number of steps, each of which answers the state it was given. -/
theorem machineNotRunningNeverChanges : Obligations.MachineNotRunningNeverChanges := by
  intro s k hr
  induction k with
  | zero => exact run_zero s
  | succ k ih => rw [run_next k (step_of_not_running hr), ih]

@[simp] theorem Change.apply_stackCapacity (c : Change) (s : State) :
    (c.apply s).stackCapacity = s.stackCapacity := by
  cases c <;> rfl

/-- Settles O10: the next state is the one the step's change makes, and no change touches the capacity. -/
theorem everyStepAnswersANextState : Obligations.EveryStepAnswersANextState :=
  fun s => ⟨s.change.apply s, step_eq_apply s, s.change.apply_stackCapacity s⟩

/-- A step answers the same state, or takes a fault, or makes the change of the instruction at `ip`. -/
theorem step_cases {s t : State} (h : step s = .next t) :
    (s.run ≠ .running ∧ t = s) ∨ (s.run = .running ∧ ∃ e, t = s.raise e) ∨
      ∃ i c, s.run = .running ∧ s.Holds i ∧ Performs s i c ∧ t = c.apply s := by
  rw [eq_apply_of_step h]
  rcases change_cases s with ⟨hr, hc⟩ | ⟨hr, hc⟩ | ⟨i, hr, hi, hc⟩ <;> rw [hc]
  · exact .inl ⟨hr, rfl⟩
  · exact .inr (.inl ⟨hr, _, rfl⟩)
  · exact .inr (.inr ⟨i, _, hr, hi, performs_plan s i, rfl⟩)

/-- A stack is what is left of it without its top entry, and that entry. -/
theorem State.stack_eq_dropTop {s : State} {w : Word} (h : s.stack.getLast? = some w) :
    s.stack = s.dropTop.stack ++ [w] :=
  (List.dropLast_append_getLast? w h).symm

/-- Settles O39: the changes that touch the stack are those of PUSH, CALL, POP and RET. -/
theorem stackChangesByOneEntry : Obligations.StackChangesByOneEntry := by
  intro s t h
  rcases step_cases h with ⟨-, rfl⟩ | ⟨-, e, rfl⟩ | ⟨i, c, -, hi, hc, rfl⟩
  · exact .inl rfl
  · exact .inl rfl
  cases c with
  | push v x =>
    obtain ⟨-, a, u, hu, ⟨rfl, rfl, rfl⟩ | ⟨rfl, rfl, rfl⟩⟩ := hc
    · refine .inr (.inl ⟨hi.opcode, u.toNat, ?_, ?_⟩)
      · rw [hi.source (k := 0) rfl, resolve_eq_ok.1 hu]
      · rw [← DataValue.word_eq]
        rfl
    · exact .inr (.inr (.inl ⟨hi.opcode, hi.bound, rfl⟩))
  | pop d w x =>
    obtain ⟨rfl, hw, rfl⟩ := hc
    exact .inr (.inr (.inr ⟨.inl hi.opcode, w, s.stack_eq_dropTop hw⟩))
  | ret w =>
    obtain ⟨rfl, hw⟩ := hc
    exact .inr (.inr (.inr ⟨.inr hi.opcode, w, s.stack_eq_dropTop hw⟩))
  | _ => exact .inl rfl

/-- Settles O40: OUT alone emits and IN alone takes from the input. -/
theorem channelsMoveByOneByte : Obligations.ChannelsMoveByOneByte := by
  intro s t h
  rcases step_cases h with ⟨-, rfl⟩ | ⟨-, e, rfl⟩ | ⟨i, c, -, hi, hc, rfl⟩
  · exact ⟨.inl rfl, rfl, .inl rfl⟩
  · exact ⟨.inl rfl, rfl, .inl rfl⟩
  cases c with
  | emit b x =>
    obtain ⟨a, v, rfl, hv, rfl, rfl⟩ := hc
    refine ⟨.inr ⟨hi.opcode, v.toNat, ?_, ?_⟩, rfl, .inl rfl⟩
    · rw [hi.source (k := 0) rfl, resolve_eq_ok.1 hv]
    · have hb : v.setWidth 8 = BitVec.ofNat 8 (v.toNat % 256) := by
        apply BitVec.eq_of_toNat_eq
        simp
      rw [← hb]
      rfl
  | input d b x =>
    obtain ⟨rfl, ⟨rest, hq⟩, rfl⟩ := hc
    refine ⟨.inl rfl, rfl, .inr ⟨hi.opcode, b, ?_⟩⟩
    simp [Change.apply, hq]
  | _ => exact ⟨.inl rfl, rfl, .inl rfl⟩

/-- A register that reads differently after a write is the one written. -/
theorem State.eq_of_readReg_ne {s : State} {d r : RegIndex} {v : Word}
    (h : (s.writeReg d v).readReg r ≠ s.readReg r) : d = r :=
  by_contra fun hne => h (s.readReg_writeReg_ne v hne)

/-- Settles O41: the changes that write a register name it as the first argument, and only POP's and RMEM's
values are not data values. -/
theorem registersChangeOnlyAsDestination : Obligations.RegistersChangeOnlyAsDestination := by
  intro s t r h hne
  rcases step_cases h with ⟨-, rfl⟩ | ⟨-, e, rfl⟩ | ⟨i, c, hr, hi, hc, rfl⟩
  · exact absurd rfl hne
  · exact absurd rfl hne
  refine ⟨hr, ?_⟩
  rw [hi.opcode]
  cases c with
  | writeReg d v x =>
    obtain ⟨hd, hop, hv, rfl⟩ := hc
    obtain rfl : d = r := State.eq_of_readReg_ne hne
    refine ⟨hi.dest hd, ?_, fun hlt => ?_⟩
    · simp only [plainWriters, List.mem_cons, List.not_mem_nil, or_false] at hop ⊢
      omega
    · have hlt' : 32767 < v.toNat := by simpa [Change.apply] using hlt
      exact .inr (hv.resolve_left (by omega))
  | pop d w x =>
    obtain ⟨rfl, -, rfl⟩ := hc
    obtain rfl : d = r := State.eq_of_readReg_ne (s := s.dropTop) hne
    exact ⟨hi.dest (k := 0) rfl, by simp [Instr.opcodeWord], fun _ => .inl rfl⟩
  | input d b x =>
    obtain ⟨rfl, -, rfl⟩ := hc
    obtain rfl : d = r := State.eq_of_readReg_ne (s := s.dropInput) hne
    refine ⟨hi.dest (k := 0) rfl, by simp [Instr.opcodeWord], fun hlt => ?_⟩
    have hlt' : 32767 < (b.setWidth 16).toNat := by simpa [Change.apply] using hlt
    rw [BitVec.toNat_setWidth] at hlt'
    omega
  | _ => exact absurd rfl hne

/-- Where `ip` stands after a step that leaves the machine running (10_state.md R27). -/
def IpRule (s t : State) : Prop :=
  (s.opcodeAt.toNat ∉ [6, 7, 8, 17, 18, 20] → t.ip.toNat = s.ip.toNat + 1 + argc s.opcodeAt) ∧
  (s.opcodeAt = 20 → t.ip.toNat = s.ip.toNat + 2 ∨ t = s) ∧
  (s.opcodeAt = 6 ∨ s.opcodeAt = 17 → sourceValue s (operandOf (s.argumentAt 1)) = some t.ip.toNat) ∧
  (s.opcodeAt = 7 ∨ s.opcodeAt = 8 →
    ∃ va vb, sourceValue s (operandOf (s.argumentAt 1)) = some va ∧
      sourceValue s (operandOf (s.argumentAt 2)) = some vb ∧
      t.ip.toNat = if (va = 0 ↔ s.opcodeAt = 8) then vb else s.ip.toNat + 3) ∧
  (s.opcodeAt = 18 → s.stack.getLast? = some t.ip)

section
variable {s t : State} {i : Instr}

theorem isZero_iff {v : DataValue} : isZero v = true ↔ v.toNat = 0 := by
  simp [isZero, ← BitVec.toNat_inj]

theorem isNonzero_iff {v : DataValue} : isNonzero v = true ↔ v.toNat ≠ 0 := by
  simp [isNonzero, ← BitVec.toNat_inj]

/-- An instruction that transfers no control leaves `ip` past all its words. -/
theorem ipRule_of_sequential (hi : s.Holds i) (hop : i.opcodeWord.toNat ∉ [6, 7, 8, 17, 18, 20])
    (hip : t.ip = s.after (1 + i.arguments.length)) : IpRule s t := by
  have hbound := hi.bound
  rw [← hi.opcode] at hop
  have hne : ∀ w : Word, w.toNat ∈ [6, 7, 8, 17, 18, 20] → s.opcodeAt ≠ w :=
    fun w hw he => hop (he ▸ hw)
  refine ⟨fun _ => ?_, fun h => absurd h (hne _ (by decide)), ?_, ?_, fun h => absurd h (hne _ (by decide))⟩
  · rw [hip, State.after_toNat (by omega), hi.count, Nat.add_assoc]
  · rintro (h | h) <;> exact absurd h (hne _ (by decide))
  · rintro (h | h) <;> exact absurd h (hne _ (by decide))

/-- JMP and CALL leave `ip` at the value of their source. -/
theorem ipRule_of_jump (hop : s.opcodeAt = 6 ∨ s.opcodeAt = 17)
    (hip : sourceValue s (operandOf (s.argumentAt 1)) = some t.ip.toNat) : IpRule s t := by
  rcases hop with hop | hop <;> simp [IpRule, hop, hip]

/-- JT and JF leave `ip` at the value of the second source, or past the instruction. -/
theorem ipRule_of_branch {a b : Operand} {va vb : DataValue} (hi : s.Holds i)
    (hargs : i.arguments = [.source a, .source b]) (hop : s.opcodeAt = 7 ∨ s.opcodeAt = 8)
    (ha : resolve s a = .ok va) (hb : resolve s b = .ok vb)
    (hip : t.ip = if (va.toNat = 0 ↔ s.opcodeAt = 8) then vb.word else s.after 3) : IpRule s t := by
  have hbound : s.ip.toNat + 3 ≤ 32768 := by simpa [hargs, Nat.add_assoc] using hi.bound
  have hsa : sourceValue s (operandOf (s.argumentAt 1)) = some va.toNat := by
    rw [hi.source (k := 0) (o := a) (by simp [hargs]), resolve_eq_ok.1 ha]
  have hsb : sourceValue s (operandOf (s.argumentAt 2)) = some vb.toNat := by
    rw [hi.source (k := 1) (o := b) (by simp [hargs]), resolve_eq_ok.1 hb]
  have hip' : t.ip.toNat = if (va.toNat = 0 ↔ s.opcodeAt = 8) then vb.toNat else s.ip.toNat + 3 := by
    rw [hip, apply_ite BitVec.toNat, DataValue.toNat_word, State.after_toNat hbound]
  refine ⟨fun h => ?_, fun h => ?_, fun h => ?_, fun _ => ⟨_, _, hsa, hsb, hip'⟩, fun h => ?_⟩
  all_goals rcases hop with hop | hop <;> simp [hop] at h

/-- `IpRule` holds of every change of the instruction at `ip` that leaves the machine running. -/
theorem ipRule_apply {c : Change} (hi : s.Holds i) (hc : Performs s i c) (hrun : (c.apply s).run = .running) :
    IpRule s (c.apply s) := by
  cases c with
  | fault e => cases hrun
  | halt r info => cases hrun
  | wait =>
    obtain ⟨d, rfl⟩ := hc
    have hop : s.opcodeAt = 20 := hi.opcode
    simp [IpRule, hop, Change.apply]
  | input d b x =>
    obtain ⟨rfl, -, rfl⟩ := hc
    have hop : s.opcodeAt = 20 := hi.opcode
    have hip : (s.after 2).toNat = s.ip.toNat + 2 := State.after_toNat hi.bound
    simp [IpRule, hop, Change.apply, hip]
  | ret w =>
    obtain ⟨rfl, hw⟩ := hc
    have hop : s.opcodeAt = 18 := hi.opcode
    simp [IpRule, hop, Change.apply, hw]
  | goto x =>
    rcases hc with ⟨rfl, rfl⟩ | ⟨a, v, rfl, hv, rfl⟩ | ⟨a, b, va, vb, ha, hb, ⟨rfl, rfl⟩ | ⟨rfl, rfl⟩⟩
    · exact ipRule_of_sequential hi (by simp [Instr.opcodeWord]) rfl
    · refine ipRule_of_jump (.inl hi.opcode) ?_
      rw [hi.source (k := 0) rfl, resolve_eq_ok.1 hv]
      simp [Change.apply]
    · refine ipRule_of_branch hi rfl (.inl hi.opcode) ha hb ?_
      have hop : s.opcodeAt = 7 := hi.opcode
      simp [Change.apply, hop, isNonzero_iff]
    · refine ipRule_of_branch hi rfl (.inr hi.opcode) ha hb ?_
      have hop : s.opcodeAt = 8 := hi.opcode
      simp [Change.apply, hop, isZero_iff]
  | push v x =>
    obtain ⟨-, a, u, hu, ⟨rfl, rfl, rfl⟩ | ⟨rfl, rfl, rfl⟩⟩ := hc
    · exact ipRule_of_sequential hi (by simp [Instr.opcodeWord]) rfl
    · refine ipRule_of_jump (.inr hi.opcode) ?_
      rw [hi.source (k := 0) rfl, resolve_eq_ok.1 hu]
      simp [Change.apply]
  | writeReg d v x =>
    obtain ⟨-, hop, -, rfl⟩ := hc
    refine ipRule_of_sequential hi ?_ rfl
    simp only [plainWriters, List.mem_cons, List.not_mem_nil, or_false] at hop ⊢
    omega
  | writeMem a v x =>
    obtain ⟨o, p, u, w, rfl, -, -, -, -, rfl⟩ := hc
    exact ipRule_of_sequential hi (by simp [Instr.opcodeWord]) rfl
  | pop d w x =>
    obtain ⟨rfl, -, rfl⟩ := hc
    exact ipRule_of_sequential hi (by simp [Instr.opcodeWord]) rfl
  | emit b x =>
    obtain ⟨a, v, rfl, -, -, rfl⟩ := hc
    exact ipRule_of_sequential hi (by simp [Instr.opcodeWord]) rfl

/-- A change of a running machine that ends in a fault leaves `ip`. -/
theorem ip_of_faulted (c : Change) (hr : s.run = .running) {k : FaultKind} {info : Word}
    (h : (c.apply s).run = .faulted k info) : (c.apply s).ip = s.ip := by
  cases c with
  | fault e => rfl
  | halt r info => cases h
  | _ => cases hr.symm.trans h

/-- A change of a running machine that ends in a halt moves `ip` past the opcode word. -/
theorem ip_of_halted (c : Change) (hr : s.run = .running) {r : HaltReason} {info : Word}
    (h : (c.apply s).run = .halted r info) : (c.apply s).ip = s.after 1 := by
  cases c with
  | fault e => cases h
  | halt r info => rfl
  | _ => cases hr.symm.trans h

end

/-- Settles O42: a fault and a halt by the change made, the rest by the instruction at `ip`. -/
theorem ipAfterAStep : Obligations.IpAfterAStep := by
  intro s t hr h
  rcases step_cases h with ⟨hr', -⟩ | ⟨-, e, rfl⟩ | ⟨i, c, -, hi, hc, rfl⟩
  · exact absurd hr hr'
  · exact ⟨fun _ _ _ => rfl, nofun, nofun⟩
  · have hbound := hi.bound
    refine ⟨fun _ _ => ip_of_faulted c hr, fun _ _ h => ?_, ipRule_apply hi hc⟩
    rw [ip_of_halted c hr h, State.after_toNat (by omega)]

end Sys2Proof.Machine
end

section
/-! What a step does not read: two states that are read alike make the same change. -/

namespace Sys2Proof.Machine

/-- An instruction plans from the registers, memory, `ip`, the top of the stack and whether it is full; IN
alone plans from the input channel as well. -/
theorem plan_congr {s s' : State} {i : Instr} (hregs : s'.regs = s.regs) (hmem : s'.mem = s.mem)
    (hip : s'.ip = s.ip) (hfull : s'.stackFull = s.stackFull) (htop : s'.stack.getLast? = s.stack.getLast?)
    (hinp : i.opcodeWord = 20 → s'.inp = s.inp) : s'.plan i = s.plan i := by
  have hres : resolve s' = resolve s := by
    funext o
    simp only [resolve, State.readReg_congr hregs]
  have hafter : s'.after = s.after := by
    funext n
    simp only [State.after, hip]
  cases i with
  | in_ a => simp only [State.plan, hafter, hinp rfl]
  | _ => simp only [State.plan, planUnary, planBinary, planJump, planPush, hres, hafter, hmem, hfull, htop]

/-- A step of a running machine fetches from memory at `ip` and then plans. -/
theorem change_congr {s s' : State} (hrun : s'.run = s.run) (hmem : s'.mem = s.mem) (hip : s'.ip = s.ip)
    (hplan : ∀ i, s.Holds i → s'.plan i = s.plan i) : s'.change = s.change := by
  by_cases hr : s.run = .running
  · have hr' := hrun.trans hr
    have hfetch : fetch s'.mem s'.ip.toNat = fetch s.mem s.ip.toNat := by rw [hmem, hip]
    rcases hf : fetch s.mem s.ip.toNat with a | ws
    · rw [change_of_fetch_error hr hf, change_of_fetch_error hr' (hfetch.trans hf)]
    · obtain ⟨i, hd⟩ := decode_of_fetch hf
      rw [change_of_fetch_ok hr hf hd, change_of_fetch_ok hr' (hfetch.trans hf) hd,
        hplan i (holds_of_fetch hf hd)]
  · rw [change_of_not_running hr, change_of_not_running (hrun.symm ▸ hr)]

/-- The byte a change emits, if it emits one. -/
def Change.emitted : Change → List Byte
  | .emit b _ => [b]
  | _ => []

theorem Change.apply_withOut (c : Change) (s : State) (o : List Byte) :
    c.apply { s with out := o } = { c.apply s with out := o ++ c.emitted } := by
  cases c with
  | emit b x => rfl
  | _ =>
    simp only [Change.emitted, List.append_nil]
    rfl

theorem Change.apply_out (c : Change) (s : State) : (c.apply s).out = s.out ++ c.emitted := by
  cases c with
  | emit b x => rfl
  | _ => simp [Change.apply, Change.emitted]

/-- Settles O43: the change a step makes does not depend on the output, to which it appends what it emits. -/
theorem outputIsNeverRead : Obligations.OutputIsNeverRead := by
  intro s t o h
  obtain rfl := eq_apply_of_step h
  have hc : ({ s with out := o } : State).change = s.change :=
    change_congr rfl rfl rfl fun _ _ => plan_congr rfl rfl rfl rfl rfl fun _ => rfl
  exact ⟨s.change.emitted, s.change.apply_out s, by rw [step_eq_apply, hc, Change.apply_withOut]⟩

/-- Entries below a stack that is not empty stay below it. -/
theorem Change.apply_stackBelow (c : Change) {s : State} (hs : s.stack ≠ []) (below : List Word) :
    c.apply { s with stack := below ++ s.stack } =
      { c.apply s with stack := below ++ (c.apply s).stack } := by
  cases c with
  | push v x => simp [Change.apply, State.pushWord, State.setIp]
  | pop d w x =>
    simp [Change.apply, State.dropTop, State.writeReg, State.setIp, List.dropLast_append_of_ne_nil hs]
  | ret w => simp [Change.apply, State.dropTop, State.setIp, List.dropLast_append_of_ne_nil hs]
  | _ => rfl

/-- Settles O44: on an unbounded stack that is not empty the top entry is all that a step reads. -/
theorem stackBelowTheTopIsNeverRead : Obligations.StackBelowTheTopIsNeverRead := by
  intro s t below hcap hs h
  obtain rfl := eq_apply_of_step h
  have hc : ({ s with stack := below ++ s.stack } : State).change = s.change := by
    refine change_congr rfl rfl rfl fun _ _ => plan_congr rfl rfl rfl ?_ ?_ fun _ => rfl
    · rw [State.stackFull_unbounded hcap]
      exact State.stackFull_unbounded hcap
    · exact List.getLast?_append_of_ne_nil below hs
  rw [step_eq_apply, hc, Change.apply_stackBelow _ hs]

/-- A change that takes no byte keeps the input channel, whatever it holds. -/
theorem Change.apply_withInp {c : Change} (h : ∀ d b x, c ≠ .input d b x) (s : State) (q : InputChannel) :
    c.apply { s with inp := q } = { c.apply s with inp := q } ∧ (c.apply s).inp = s.inp := by
  cases c with
  | input d b x => exact absurd rfl (h d b x)
  | _ => exact ⟨rfl, rfl⟩

/-- IN alone takes a byte from the input. -/
theorem change_ne_input {s : State} (h : s.opcodeAt ≠ 20) (d : RegIndex) (b : Byte) (x : Word) :
    s.change ≠ .input d b x := by
  intro he
  rcases change_cases s with ⟨-, hc⟩ | ⟨-, hc⟩ | ⟨i, -, hi, hc⟩
  · cases hc.symm.trans he
  · cases hc.symm.trans he
  · have hp := performs_plan s i
    rw [← hc, he] at hp
    obtain ⟨rfl, -⟩ := hp
    exact h hi.opcode

/-- Settles O45: without an IN at `ip` the change depends on the input channel as little as it changes it. -/
theorem onlyInReadsTheInput : Obligations.OnlyInReadsTheInput := by
  intro s t q hop h
  obtain rfl := eq_apply_of_step h
  have hc : ({ s with inp := q } : State).change = s.change :=
    change_congr rfl rfl rfl fun i hi =>
      plan_congr rfl rfl rfl rfl rfl fun h => absurd (hi.opcode.trans h) hop
  obtain ⟨happly, hinp⟩ := Change.apply_withInp (change_ne_input hop) s q
  exact ⟨hinp, by rw [step_eq_apply, hc, happly]⟩

end Sys2Proof.Machine
end

section
/-! `STATUS` (10_state.md R34). -/

namespace Sys2Proof.Machine

section
variable (info : Word) (code : BitVec 4) (state : BitVec 2)

/-! The fields of `STATUS`, each read back from where it was put. -/

theorem extract_state_packStatus : (packStatus info code state).extractLsb' 0 2 = state := by
  exact BitVec.extractLsb'_append_eq_right

theorem extract_low_reserved_packStatus : (packStatus info code state).extractLsb' 2 2 = 0 := by
  rw [packStatus, BitVec.extractLsb'_append_eq_of_le (by decide)]
  exact BitVec.extractLsb'_append_eq_right

theorem extract_code_packStatus : (packStatus info code state).extractLsb' 4 4 = code := by
  rw [packStatus, BitVec.extractLsb'_append_eq_of_le (by decide), BitVec.extractLsb'_append_eq_of_le (by decide)]
  exact BitVec.extractLsb'_append_eq_right

theorem extract_high_reserved_packStatus : (packStatus info code state).extractLsb' 8 8 = 0 := by
  rw [packStatus, BitVec.extractLsb'_append_eq_of_le (by decide), BitVec.extractLsb'_append_eq_of_le (by decide),
    BitVec.extractLsb'_append_eq_of_le (by decide)]
  exact BitVec.extractLsb'_append_eq_right

theorem extract_info_packStatus : (packStatus info code state).extractLsb' 16 16 = info := by
  rw [packStatus, BitVec.extractLsb'_append_eq_of_le (by decide), BitVec.extractLsb'_append_eq_of_le (by decide),
    BitVec.extractLsb'_append_eq_of_le (by decide)]
  exact BitVec.extractLsb'_append_eq_left

end

/-- `STATUS` is packed from some info, code and state, whatever `RUN` is. -/
theorem exists_packStatus (s : State) : ∃ info code state, s.status = packStatus info code state := by
  unfold State.status RunState.status
  split <;> exact ⟨_, _, _, rfl⟩

theorem status_of_running {s : State} (h : s.run = .running) : s.status = 0 := by
  simp only [State.status, h, RunState.status]
  decide

/-- Settles O21: `STATUS` is packed from `RUN`, and each field is read back from its place. -/
theorem statusShowsRun : Obligations.StatusShowsRun := by
  refine ⟨fun s => ?_, by decide⟩
  obtain ⟨info, code, state, h⟩ := exists_packStatus s
  refine ⟨?_, ?_, fun hr => ?_, fun r info hr => ?_, fun k info hr => ?_⟩
  · rw [h, extract_low_reserved_packStatus]
  · rw [h, extract_high_reserved_packStatus]
  · exact status_of_running hr
  · simp only [State.status, hr, RunState.status]
    exact ⟨extract_state_packStatus .., extract_code_packStatus .., extract_info_packStatus ..⟩
  · simp only [State.status, hr, RunState.status]
    exact ⟨extract_state_packStatus .., extract_code_packStatus .., extract_info_packStatus ..⟩

end Sys2Proof.Machine
end

section
/-! What the image load leaves in memory, and the bounds of every reachable state (10_state.md R39, R40). -/

namespace Sys2Proof.Machine

/-- A cell of the image is its byte pair, the low byte first. -/
theorem imageCell_zero (lo hi : Byte) (rest : List Byte) : imageCell (lo :: hi :: rest) 0 = hi ++ lo := by
  have happend : hi.toNat <<< 8 ||| lo.toNat = lo.toNat + 256 * hi.toNat := by
    rw [← Nat.shiftLeft_add_eq_or_of_lt lo.isLt, Nat.shiftLeft_eq]
    omega
  apply BitVec.eq_of_toNat_eq
  rw [BitVec.toNat_append, happend]
  simp only [imageCell, Nat.mul_zero, List.drop_zero, BitVec.toNat_ofNat]
  omega

theorem imageCell_succ (lo hi : Byte) (rest : List Byte) (k : Nat) :
    imageCell (lo :: hi :: rest) (k + 1) = imageCell rest k := rfl

/-- A cell beyond the image's whole words holds 0. -/
theorem imageCell_beyond {image : List Byte} {k : Nat} (h : image.length / 2 ≤ k) : imageCell image k = 0 := by
  unfold imageCell
  split
  · rename_i lo hi rest hd
    have := congrArg List.length hd
    simp only [List.length_drop, List.length_cons] at this
    omega
  · rfl

/-- The load puts the image's words from cell `k` on and leaves every other cell (70_reset_and_hazards.md R203). -/
theorem read_loadBytes {m : Memory} (h : m.wf = true) {k : Nat} {image : List Byte}
    (hfit : k + image.length / 2 ≤ 32768) (a : Nat) :
    (loadBytes m k image).read a =
      if k ≤ a ∧ a < k + image.length / 2 then imageCell image (a - k) else m.read a := by
  induction image using List.twoStepInduction generalizing m k with
  | nil =>
    rw [if_neg (by simp)]
    rfl
  | singleton b =>
    rw [if_neg (by simp)]
    rfl
  | cons_cons lo hi rest ih _ =>
    have hlen : (lo :: hi :: rest).length / 2 = rest.length / 2 + 1 := by
      simp only [List.length_cons]
      omega
    rw [hlen] at hfit ⊢
    rw [loadBytes, ih (Memory.wf_write h k _) (by omega), Memory.read_write h (by omega)]
    rcases Nat.lt_trichotomy a k with hlt | rfl | hgt
    · rw [if_neg (by omega), if_neg (by omega), if_neg (by omega)]
    · rw [if_neg (by omega), if_pos rfl, if_pos (by omega), Nat.sub_self, imageCell_zero]
    · obtain ⟨n, rfl⟩ : ∃ n, a = k + 1 + n := ⟨a - (k + 1), by omega⟩
      rw [if_neg (by omega : ¬ k + 1 + n = k)]
      have hn : k + 1 + n - k = n + 1 := by omega
      rw [hn, imageCell_succ, Nat.add_sub_cancel_left]
      congr 1
      apply propext
      omega

/-- After the load every cell reads as the image says. -/
theorem read_boot {capacity : Option Nat} {inp : InputChannel} {image : List Byte} {t : State}
    (h : boot capacity inp image = .next t) (a : Nat) : t.mem.read a = imageCell image a := by
  obtain ⟨-, hfit, rfl⟩ := load_next h
  have hread := read_loadBytes Memory.wf_empty (k := 0) (by omega : 0 + image.length / 2 ≤ 32768) a
  refine hread.trans ?_
  split
  · rfl
  · rw [imageCell_beyond (by omega)]
    rfl

/-- The machine right after the load meets the invariant. -/
theorem inv_boot {capacity : Option Nat} {inp : InputChannel} {image : List Byte} {t : State}
    (h : boot capacity inp image = .next t) : t.Inv := by
  obtain ⟨-, -, rfl⟩ := load_next h
  have hreset := inv_resetWith capacity inp
  exact { hreset with memory := loadBytes_wf hreset.memory 0 image }

/-- Settles O54: by what reset and load put into each field. -/
theorem resetGivesTheConstructedState : Obligations.ResetGivesTheConstructedState := by
  refine ⟨fun s inp => ?_, fun capacity inp image t a h ha => ?_, fun rest => rfl⟩
  · exact ⟨State.readReg_resetWith _ _, fun _ => rfl, rfl, rfl, rfl, status_of_running rfl, rfl, rfl⟩
  · rw [read_boot h, imageCell_beyond ha]

/-- The memory of a machine that was loaded with `image`: a cell that was written since holds a data value. -/
def State.MemoryFrom (image : List Byte) (s : State) : Prop :=
  ∀ a, s.mem.read a = imageCell image a ∨ (s.mem.read a).toNat ≤ 32767

/-- A step stores data values alone (43_memory_io.md R153). -/
theorem memoryFrom_step {image : List Byte} {s t : State} (hinv : s.Inv) (hs : s.MemoryFrom image)
    (h : step s = .next t) : t.MemoryFrom image := by
  rcases step_cases h with ⟨-, rfl⟩ | ⟨-, e, rfl⟩ | ⟨i, c, -, -, hc, rfl⟩
  · exact hs
  · exact hs
  cases c with
  | writeMem a v x =>
    obtain ⟨o, p, u, w, -, -, -, rfl, rfl, -⟩ := hc
    intro b
    have hread := Memory.read_write hinv.memory u.isLt w.word b
    show (s.mem.write u.toNat w.word).read b = _ ∨ ((s.mem.write u.toNat w.word).read b).toNat ≤ _
    rw [hread]
    split
    · exact .inr (DataValue.word_le w)
    · exact hs b
  | _ => exact hs

/-- Every reachable state meets the invariant, and its memory comes from the image. -/
theorem reachable_inv {image : List Byte} {t : State} (h : Reachable image t) :
    t.Inv ∧ t.MemoryFrom image := by
  induction h with
  | boot capacity inp t h => exact ⟨inv_boot h, fun a => .inl (read_boot h a)⟩
  | step s t _ h ih => exact ⟨inv_step ih.1 h, memoryFrom_step ih.1 ih.2 h⟩
  | supply s bs _ ih => exact ⟨⟨ih.1.memory, ih.1.ip, ih.1.stack, ih.1.room, ih.1.run⟩, ih.2⟩
  | close s _ ih => exact ⟨⟨ih.1.memory, ih.1.ip, ih.1.stack, ih.1.room, ih.1.run⟩, ih.2⟩

theorem lt_of_mem_cellsWf {lo : Nat} {cs : List (Nat × Word)} (h : cellsWf lo cs = true) :
    ∀ c ∈ cs, c.1 < 32768 := by
  induction cs generalizing lo with
  | nil => exact fun _ hc => absurd hc List.not_mem_nil
  | cons c rest ih =>
    obtain ⟨-, ha, -, hrest⟩ := cellsWf_cons.1 h
    exact List.forall_mem_cons.2 ⟨ha, ih hrest⟩

/-- Settles O14: the invariant of every reachable state, and what its memory may hold. -/
theorem reachableStatesKeepTheirBounds : Obligations.ReachableStatesKeepTheirBounds := by
  intro image t h
  obtain ⟨hinv, hmem⟩ := reachable_inv h
  exact ⟨hinv.ip, hinv.stack, fun a hne => (hmem a).resolve_left hne, Vector.length_toList,
    lt_of_mem_cellsWf hinv.memory, fun _ v _ => DataValue.word_le v⟩

end Sys2Proof.Machine
end

section
/-! A running machine executes the instruction at `ip`; what that says of WMEM and of an invalid opcode word
(20_memory.md R65). -/

namespace Sys2Proof.Machine

section
variable {s : State}

/-- A step executes what the words at `ip` decode to, if they all lie in memory. -/
theorem step_eq_exec {i : Instr} {left : List Word} (hr : s.run = .running)
    (hle : s.ip.toNat + 1 + argc s.opcodeAt ≤ 32768)
    (hd : decode (s.opcodeAt :: (List.range' (s.ip.toNat + 1) (argc s.opcodeAt)).map s.mem.read) =
      .ok (i, left)) : step s = exec i s := by
  obtain ⟨j, hj, hs⟩ := stepRunning_of_fetch (fetch_of_le hle)
  obtain ⟨rfl, -⟩ : j = i ∧ [] = left := by simpa using hj.symm.trans hd
  rw [step_of_running hr, hs]

theorem step_of_wmem (hr : s.run = .running) (hle : s.ip.toNat + 3 ≤ 32768) (hop : s.opcodeAt = 16) :
    step s = exec (.wmem (operandOf (s.argumentAt 1)) (operandOf (s.argumentAt 2))) s := by
  have hargc : argc s.opcodeAt = 2 := by rw [hop]; rfl
  refine step_eq_exec (left := []) hr (by omega) ?_
  rw [hargc, hop]
  rfl

theorem step_of_invalid (hr : s.run = .running) (hle : s.ip.toNat + 1 ≤ 32768)
    (hop : 22 ≤ s.opcodeAt.toNat) : step s = .next (s.halt .invalidOpcode s.opcodeAt) :=
  step_eq_exec hr (by rw [argc_invalid hop]; exact hle) (decode_invalid hop _)

/-- WMEM on sources that have values (43_memory_io.md R153). -/
theorem exec_wmem {a b : Operand} {va vb : DataValue} (ha : resolve s a = .ok va) (hb : resolve s b = .ok vb) :
    exec (.wmem a b) s = .next ((s.writeMem va.toNat vb.word).setIp (s.after 3)) :=
  (withSource_ok ha _).trans (withSource_ok hb _)

end

/-- Settles O49: the WMEM at `ip` completes, and the next fetch reads the cell it wrote. -/
theorem storeIsSeenByTheNextFetch : Obligations.StoreIsSeenByTheNextFetch := by
  intro s va vb hwf hr hip hop ha hb
  obtain ⟨u, hu, rfl, -⟩ := resolve_of_sourceValue ha
  obtain ⟨w, hw, rfl, hword⟩ := resolve_of_sourceValue hb
  rw [← hword]
  have hstep := (step_of_wmem hr (by omega) hop).trans (exec_wmem hu hw)
  refine ⟨hstep, fun hnext hinvalid => ?_⟩
  have hafter : (s.after 3).toNat = s.ip.toNat + 3 := State.after_toNat (by omega)
  have hseen : ((s.writeMem u.toNat w.word).setIp (s.after 3)).opcodeAt = w.word := by
    show (s.mem.write u.toNat w.word).read (s.after 3).toNat = w.word
    rw [hafter, ← hnext, Memory.read_write_same hwf u.isLt]
  have hhalt := step_of_invalid (s := (s.writeMem u.toNat w.word).setIp (s.after 3)) hr
    (show (s.after 3).toNat + 1 ≤ 32768 by omega) (by rw [hseen, DataValue.toNat_word]; exact hinvalid)
  have hip4 : s.after 3 + 1 = s.ip + 4 := BitVec.add_assoc s.ip 3 1
  rw [run_next 1 hstep, run_next 0 hhalt, run_zero, hseen, ← hip4]
  rfl

end Sys2Proof.Machine
end

section
/-! The encoding: a well-formed instruction and its words determine each other, and the opcode word alone
decides how many argument words are read (30_encoding.md R70 to R79, 40_fetch_decode_step.md R94). -/

namespace Sys2Proof

section
variable {w0 : Word} {rest : List Word}

/-! Each row shape of the decoder reads well-formed arguments back from their words. -/

theorem decodeDSS_words {mk : Destination → Operand → Operand → Instr} {a : Destination} {b c : Operand}
    (h : (a.wellFormed && b.wellFormed && c.wellFormed) = true) :
    decodeDSS w0 mk (a.word :: b.word :: c.word :: rest) = .ok (mk a b c, rest) := by
  simp only [Bool.and_eq_true] at h
  obtain ⟨⟨ha, hb⟩, hc⟩ := h
  simp only [decodeDSS, decode3, destinationOf_word ha, operandOf_word hb, operandOf_word hc]

theorem decodeDS_words {mk : Destination → Operand → Instr} {a : Destination} {b : Operand}
    (h : (a.wellFormed && b.wellFormed) = true) :
    decodeDS w0 mk (a.word :: b.word :: rest) = .ok (mk a b, rest) := by
  simp only [Bool.and_eq_true] at h
  obtain ⟨ha, hb⟩ := h
  simp only [decodeDS, decode2, destinationOf_word ha, operandOf_word hb]

theorem decodeSS_words {mk : Operand → Operand → Instr} {a b : Operand}
    (h : (a.wellFormed && b.wellFormed) = true) :
    decodeSS w0 mk (a.word :: b.word :: rest) = .ok (mk a b, rest) := by
  simp only [Bool.and_eq_true] at h
  obtain ⟨ha, hb⟩ := h
  simp only [decodeSS, decode2, operandOf_word ha, operandOf_word hb]

theorem decodeD_words {mk : Destination → Instr} {a : Destination} (h : a.wellFormed = true) :
    decodeD w0 mk (a.word :: rest) = .ok (mk a, rest) := by
  simp only [decodeD, decode1, destinationOf_word h]

theorem decodeS_words {mk : Operand → Instr} {a : Operand} (h : a.wellFormed = true) :
    decodeS w0 mk (a.word :: rest) = .ok (mk a, rest) := by
  simp only [decodeS, decode1, operandOf_word h]

end

/-- Settles O1: the opcode word selects the row that the instruction was written from, and that row reads the
arguments back. -/
theorem encodeThenDecodeGivesTheInstruction : Obligations.EncodeThenDecodeGivesTheInstruction := by
  intro i rest h
  cases i with
  | halt | ret | noop => rfl
  | set a b | not_ a b | rmem a b => exact decodeDS_words h
  | push a | jmp a | call a | out a => exact decodeS_words h
  | pop a | in_ a => exact decodeD_words h
  | jt a b | jf a b | wmem a b => exact decodeSS_words h
  | eq a b c | gt a b c | add a b c | mult a b c | mod a b c | and_ a b c | or_ a b c =>
    exact decodeDSS_words h
  | invalid w => exact decode_invalid (of_decide_eq_true h) rest

/-- Settles O2: whatever the decoder answers is read off the words it was given. -/
theorem decodeThenEncodeGivesTheWords : Obligations.DecodeThenEncodeGivesTheWords := by
  intro ws rest i h
  cases ws with
  | nil => cases h
  | cons w0 args =>
    obtain ⟨rfl, hwf, rfl⟩ := readAs_of_decode h
    exact ⟨hwf, rfl⟩

section
variable {w0 : Word} {ws : List Word} {e : DecodeError}

/-! A row of the decoder answers an error exactly on a list shorter than its arguments. -/

theorem decode1_eq_error {mk : Word → Instr} :
    decode1 w0 mk ws = .error e ↔ ws.length < 1 ∧ e = .missingArgument w0 ws.length := by
  match ws with
  | [] => simp [decode1, eq_comm]
  | _ :: _ => simp [decode1]

theorem decode2_eq_error {mk : Word → Word → Instr} :
    decode2 w0 mk ws = .error e ↔ ws.length < 2 ∧ e = .missingArgument w0 ws.length := by
  match ws with
  | [] | [_] => simp [decode2, eq_comm]
  | _ :: _ :: _ => simp [decode2]

theorem decode3_eq_error {mk : Word → Word → Word → Instr} :
    decode3 w0 mk ws = .error e ↔ ws.length < 3 ∧ e = .missingArgument w0 ws.length := by
  match ws with
  | [] | [_] | [_, _] => simp [decode3, eq_comm]
  | _ :: _ :: _ :: _ => simp [decode3]

/-- After an opcode word, a short list is the only error of the decoder, and it is named. -/
theorem decode_eq_error :
    decode (w0 :: ws) = .error e ↔ ws.length < argc w0 ∧ e = .missingArgument w0 ws.length := by
  rcases Nat.lt_or_ge w0.toNat 22 with hlt | hge
  · simp only [decode, argc]
    generalize w0.toNat = n at hlt
    interval_cases n <;>
      simp [decodeDSS, decodeDS, decodeSS, decodeD, decodeS, decode1_eq_error, decode2_eq_error,
        decode3_eq_error, argCounts]
  · simp [decode_invalid hge, argc_invalid hge]

end

/-- A well-formed instruction has as many arguments as its opcode word says (40_fetch_decode_step.md R94). -/
theorem Instr.length_arguments {i : Instr} (h : i.wellFormed = true) :
    i.arguments.length = argc i.opcodeWord := by
  cases i with
  | invalid w => exact (argc_invalid (of_decide_eq_true h)).symm
  | _ => rfl

/-- Settles O3: the decoder fails exactly on a list that is too short, and what it answers otherwise has the
arguments that its opcode word counts. -/
theorem opcodeWordDecidesTheLength : Obligations.OpcodeWordDecidesTheLength := by
  refine fun w0 rest => ⟨fun hle => ?_, fun hlt => decode_eq_error.2 ⟨hlt, rfl⟩⟩
  cases hd : decode (w0 :: rest) with
  | error e => exact absurd (decode_eq_error.1 hd).1 (Nat.not_lt.2 hle)
  | ok read =>
    obtain ⟨i, left⟩ := read
    obtain ⟨rfl, hwf, rfl⟩ := readAs_of_decode hd
    have hcount := Instr.length_arguments hwf
    exact ⟨i, by simp [← hcount], rfl, hcount⟩

/-- Settles O5: above 21 the row is Invalid; an Invalid instruction is well-formed, so it comes from no other
opcode word; and a graceful halt changes `ip` and `RUN` alone. -/
theorem opcodesAbove21AreTheInvalidEncoding : Obligations.OpcodesAbove21AreTheInvalidEncoding := by
  refine fun w0 rest => ⟨fun hge => decode_invalid hge rest, fun w r h => ?_, fun _ => rfl⟩
  obtain ⟨hop, hwf, hwords⟩ := readAs_of_decode h
  obtain rfl : w0 = w := hop
  exact ⟨rfl, hwords.symm, of_decide_eq_true hwf⟩

/-- Settles O4: the model decodes each of the twelve lists. -/
theorem sampleWordsDecode : Obligations.SampleWordsDecode :=
  ⟨rfl, rfl, rfl, rfl, rfl, rfl, rfl, rfl, rfl, rfl, rfl, rfl⟩

end Sys2Proof
end

section
/-! The fetch and the decoding of a step, on raw words (40_fetch_decode_step.md R90 to R97). -/

namespace Sys2Proof.Machine

section
variable {s : State}

/-- A fetch that leaves memory is the fault that records the first address beyond it. -/
theorem step_of_fetch_beyond (hr : s.run = .running) (h : 32768 < s.ip.toNat + 1 + argc s.opcodeAt) :
    step s = .next (s.raise ⟨.fetchOutOfRange, BitVec.ofNat 16 (max s.ip.toNat 32768)⟩) := by
  rcases step_running_cases hr with ⟨a, hf, hs⟩ | ⟨i, hle, -, -⟩
  · rw [hs, (fetch_error hf).2]
  · exact absurd h (Nat.not_lt.2 hle)

/-- Settles O7: the address recorded is `ip` where `ip` is beyond memory, and 32768 otherwise. -/
theorem fetchBeyondMemoryFaults : Obligations.FetchBeyondMemoryFaults := by
  refine ⟨fun s hr hip => ?_, fun s hr hip hargs => ?_⟩
  · rw [step_of_fetch_beyond hr (by omega), max_eq_left (by omega), BitVec.ofNat_toNat, BitVec.setWidth_eq]
    rfl
  · rw [step_of_fetch_beyond hr (by omega), max_eq_right (by omega)]
    rfl

/-- A running machine whose fetch stays in memory executes the instruction that stands at `ip`. -/
theorem exists_holds_of_le (hr : s.run = .running) (h : s.ip.toNat + 1 + argc s.opcodeAt ≤ 32768) :
    ∃ i, s.Holds i ∧ step s = exec i s := by
  have hf := fetch_of_le h
  obtain ⟨i, hd, hs⟩ := stepRunning_of_fetch hf
  exact ⟨i, holds_of_fetch hf hd, (step_of_running hr).trans hs⟩

/-- Settles O6: the words read are those of `i`, of which the fetch takes exactly as many as `i` has. -/
theorem stepRunsTheDecodedInstruction : Obligations.StepRunsTheDecodedInstruction := by
  intro s ws rest i hr hle hread hd
  obtain ⟨hwf, rfl⟩ := decodeThenEncodeGivesTheWords ws rest i hd
  have hlen : (encode i).length = 1 + i.arguments.length := by simp [encode, Nat.add_comm]
  have hop : s.opcodeAt = i.opcodeWord := hread 0 (by simp [encode])
  have hargc : argc s.opcodeAt = i.arguments.length := by rw [hop, Instr.length_arguments hwf]
  have hfetched : s.opcodeAt :: (List.range' (s.ip.toNat + 1) (argc s.opcodeAt)).map s.mem.read =
      encode i ++ [] := by
    rw [List.append_nil, hargc, hop, encode]
    congr 1
    refine List.ext_getElem (by simp) fun k hk _ => ?_
    have hk' : k < i.arguments.length := by simpa using hk
    have hword := hread (k + 1) (by simp [encode]; omega)
    simpa [encode, hk', Nat.add_assoc, Nat.add_comm 1] using hword
  rw [List.length_append, hlen] at hle
  refine step_eq_exec (left := []) hr (by omega) ?_
  rw [hfetched]
  exact encodeThenDecodeGivesTheInstruction i [] hwf

/-! `Resolve` and `DestIndex` (R96, R97). -/

/-- A register that holds a data value resolves to it. -/
theorem resolve_reg_of_le {r : RegIndex} (h : (s.readReg r).toNat ≤ 32767) :
    ∃ v, resolve s (.reg r) = .ok v ∧ v.word = s.readReg r :=
  ⟨(s.readReg r).setWidth 15, if_pos h, DataValue.word_setWidth (by omega)⟩

/-- A register that holds no data value raises `NonDataValue` with the word that names the register. -/
theorem resolve_reg_of_lt {r : RegIndex} (h : 32767 < (s.readReg r).toNat) :
    resolve s (.reg r) = .error ⟨.nonDataValue, regWord r⟩ :=
  if_neg (by omega)

end

/-- The raw word 32768 + r is the reference to register r. -/
theorem eq_regWord {w : Word} {r : RegIndex} (h : w.toNat = 32768 + r.val) : w = regWord r :=
  BitVec.eq_of_toNat_eq (by rw [h, regWord_toNat])

/-- Settles O16: by the class of the word; a register that was just written holds what was written. -/
theorem resolveFollowsTheOperandClass : Obligations.ResolveFollowsTheOperandClass := by
  refine fun s w => ⟨fun hlit => ?_, fun r hreg => ?_, fun hbad => ?_⟩
  · rw [operandOf_literal (by omega)]
    exact ⟨_, rfl, DataValue.word_setWidth (by omega)⟩
  · rw [eq_regWord hreg, operandOf_regWord]
    refine ⟨resolve_reg_of_le, resolve_reg_of_lt, fun x hx => ?_⟩
    have hread := s.readReg_writeReg_same r x
    simpa only [hread] using resolve_reg_of_le (s := s.writeReg r x) (r := r) (hread.symm ▸ hx)
  · rw [operandOf_invalid hbad]
    rfl

/-- Settles O17: by the class of the word. -/
theorem destIndexFollowsTheRawWord : Obligations.DestIndexFollowsTheRawWord := by
  refine fun w => ⟨fun r hreg => ?_, fun hother => ?_⟩
  · rw [eq_regWord hreg, destinationOf_regWord]
    rfl
  · rw [destinationOf_other hother]
    rfl

/-- Settles O37: neither instruction has an argument to check. -/
theorem haltAndNoopMoveIp : Obligations.HaltAndNoopMoveIp := fun _ => ⟨rfl, rfl⟩

end Sys2Proof.Machine
end

section
/-! The execution of an instruction is the check of its arguments and then the execute phase of the spec's
pseudocode (40_fetch_decode_step.md R98, R102). -/

namespace Sys2Proof.Machine

section
variable (b c : DataValue)

/-! The ALU on data values is the pseudocode's arithmetic on their words. -/

theorem Alu.eq_word : Alu.eq b c = if b.word = c.word then 1 else 0 := by
  simp [Alu.eq, truthWord, BitVec.toNat_inj]

theorem Alu.gt_word : Alu.gt b c = if c.word.toNat < b.word.toNat then 1 else 0 := by
  simp [Alu.gt, truthWord]

theorem Alu.add_word : Alu.add b c = BitVec.ofNat 16 ((b.word.toNat + c.word.toNat) % 32768) := by
  simp only [Alu.add, DataValue.toNat_word]

theorem Alu.mult_word : Alu.mult b c = BitVec.ofNat 16 (b.word.toNat * c.word.toNat % 32768) := by
  simp only [Alu.mult, DataValue.toNat_word]

theorem Alu.mod_word :
    Alu.mod b c =
      if c.word.toNat = 0 then none else some (BitVec.ofNat 16 (b.word.toNat % c.word.toNat)) := by
  simp only [Alu.mod, DataValue.toNat_word]

end

end Sys2Proof.Machine

namespace Sys2Proof.Pseudocode

open Sys2Proof.Machine

/-- The arguments checked in decode order; then `k` of the destinations and the source values (R98). -/
def afterArguments (s : State) : List Argument → (List RegIndex → List Word → State) → State
  | [], k => k [] []
  | .source o :: rest, k =>
    match Machine.resolve s o with
    | .ok v => afterArguments s rest fun ds vs => k ds (v.word :: vs)
    | .error e => s.raise e
  | .dest d :: rest, k =>
    match Machine.destIndex d with
    | .ok r => afterArguments s rest fun ds vs => k (r :: ds) vs
    | .error e => s.raise e

section
variable {s : State} {a : Destination} {b c o : Operand} {k : List RegIndex → List Word → State}
  {rest : List Argument}

/-- The first argument in decode order that raises decides, whatever comes after the check. -/
theorem afterArguments_of_fault {args : List Argument} {e : FaultEvent}
    (h : args.findSome? (argumentFault s) = some e) : afterArguments s args k = s.raise e := by
  induction args generalizing k with
  | nil => cases h
  | cons x rest ih =>
    rw [List.findSome?_cons] at h
    cases x with
    | source o =>
      rcases hx : Machine.resolve s o with e' | v
      · rw [resolve_eq_error.1 hx] at h
        obtain rfl := Option.some.inj h
        simp only [afterArguments, hx]
      · rw [argumentFault_of_resolve hx] at h
        simp only [afterArguments, hx, ih h]
    | dest d =>
      cases d with
      | reg r => exact ih h
      | bad w =>
        obtain rfl := Option.some.inj h
        rfl

/-! The planned change of each shape of instruction checks the arguments in decode order. -/

theorem orFault_source_apply {k' : DataValue → Change}
    (h : ∀ v, (k' v).apply s = afterArguments s rest fun ds vs => k ds (v.word :: vs)) :
    (orFault (Machine.resolve s o) k').apply s = afterArguments s (.source o :: rest) k := by
  simp only [afterArguments, orFault]
  cases Machine.resolve s o with
  | ok v => exact h v
  | error e => rfl

theorem orFault_dest_apply {k' : RegIndex → Change}
    (h : ∀ d, (k' d).apply s = afterArguments s rest fun ds vs => k (d :: ds) vs) :
    (orFault (Machine.destIndex a) k').apply s = afterArguments s (.dest a :: rest) k := by
  simp only [afterArguments, orFault]
  cases Machine.destIndex a with
  | ok d => exact h d
  | error e => rfl

theorem planUnary_apply {f : DataValue → Word}
    (h : ∀ d vb, k [d] [vb.word] = (s.writeReg d (f vb)).setIp (s.after 3)) :
    (planUnary f s a b).apply s = afterArguments s [.dest a, .source b] k :=
  orFault_dest_apply fun d => orFault_source_apply fun vb => (h d vb).symm

theorem planBinary_apply {f : DataValue → DataValue → Word}
    (h : ∀ d vb vc, k [d] [vb.word, vc.word] = (s.writeReg d (f vb vc)).setIp (s.after 4)) :
    (planBinary f s a b c).apply s = afterArguments s [.dest a, .source b, .source c] k :=
  orFault_dest_apply fun d => orFault_source_apply fun vb => orFault_source_apply fun vc => (h d vb vc).symm

theorem planJump_apply {taken : DataValue → Bool}
    (h : ∀ va vb : DataValue, k [] [va.word, vb.word] = s.setIp (if taken va then vb.word else s.after 3)) :
    (planJump taken s b c).apply s = afterArguments s [.source b, .source c] k :=
  orFault_source_apply fun va => orFault_source_apply fun vb => (h va vb).symm

theorem planPush_apply (v x : Word) :
    (planPush s v x).apply s =
      if s.stackCapacity = some s.stack.length then raised s .stackOverflow 0
      else { s with stack := s.stack ++ [v], ip := x } := by
  simp only [planPush, s.stackFull_iff]
  split <;> rfl

end

/-- The change an instruction plans is the execute phase of its opcode after the check of its arguments. -/
theorem plan_apply_eq_afterArguments {s : State} {i : Instr} (hi : ∀ w, i ≠ .invalid w) :
    (s.plan i).apply s =
      afterArguments s i.arguments (perform s (s.after (1 + i.arguments.length)) i.opcodeWord.toNat) := by
  cases i with
  | invalid w => exact absurd rfl (hi w)
  | halt | noop => rfl
  | set a b | not_ a b => exact planUnary_apply fun _ _ => rfl
  | and_ a b c | or_ a b c => exact planBinary_apply fun _ _ _ => rfl
  | eq a b c => exact planBinary_apply fun _ _ _ => by rw [Alu.eq_word]; rfl
  | gt a b c => exact planBinary_apply fun _ _ _ => by rw [Alu.gt_word]; rfl
  | add a b c => exact planBinary_apply fun _ _ _ => by rw [Alu.add_word]; rfl
  | mult a b c => exact planBinary_apply fun _ _ _ => by rw [Alu.mult_word]; rfl
  | mod a b c =>
    refine orFault_dest_apply fun d => orFault_source_apply fun vb => orFault_source_apply fun vc => ?_
    show _ = if vc.word.toNat = 0 then raised s .divideByZero 0 else _
    rw [Alu.mod_word]
    by_cases hc : vc.word.toNat = 0
    · simp only [if_pos hc]
      rfl
    · simp only [if_neg hc]
      rfl
  | jmp a => exact orFault_source_apply fun _ => rfl
  | jt a b =>
    refine planJump_apply fun va vb => ?_
    show ({ s with ip := if va.word ≠ 0 then vb.word else s.after 3 } : State) = _
    simp [isNonzero, State.setIp]
  | jf a b =>
    refine planJump_apply fun va vb => ?_
    show ({ s with ip := if va.word = 0 then vb.word else s.after 3 } : State) = _
    simp [isZero, State.setIp]
  | push a | call a => exact orFault_source_apply fun _ => planPush_apply _ _
  | pop a =>
    refine orFault_dest_apply fun d => ?_
    simp only [afterArguments, perform, Instr.opcodeWord]
    cases s.stack.getLast? <;> rfl
  | ret =>
    simp only [State.plan, Instr.arguments, afterArguments, perform, Instr.opcodeWord]
    cases s.stack.getLast? <;> rfl
  | rmem a b =>
    refine orFault_dest_apply fun d => orFault_source_apply fun vb => ?_
    simp only [← DataValue.toNat_word]
    rfl
  | wmem a b =>
    refine orFault_source_apply fun va => orFault_source_apply fun vb => ?_
    simp only [← DataValue.toNat_word]
    rfl
  | out a =>
    refine orFault_source_apply fun va => ?_
    show (s.emit (va.setWidth 8)).setIp (s.after 2) = (s.emit (va.word.setWidth 8)).setIp (s.after 2)
    rw [DataValue.word, BitVec.setWidth_setWidth_of_le _ (by decide)]
  | in_ a =>
    refine orFault_dest_apply fun d => ?_
    simp only [afterArguments, perform, Instr.opcodeWord, InputChannel.answer]
    rcases hq : s.inp.queue with _ | ⟨b, rest⟩
    · cases s.inp.closed <;> rfl
    · simp only [Change.apply, State.dropInput, hq]
      rfl

/-- Settles O15: `exec` checks the arguments in decode order before the execute phase. -/
theorem firstOperandFaultEndsTheInstruction : Obligations.FirstOperandFaultEndsTheInstruction := by
  intro s i e h
  have hi : ∀ w, i ≠ .invalid w := by
    rintro w rfl
    cases h
  rw [exec_eq_apply, plan_apply_eq_afterArguments hi, afterArguments_of_fault h]
  rfl

end Sys2Proof.Pseudocode
end

section
/-! The spec's pseudocode on the raw words of the instruction at `ip` (40_fetch_decode_step.md R91, R96 to R98,
R102). -/

namespace Sys2Proof.Pseudocode

open Sys2Proof.Machine

/-- The index that the raw word of a register reference gives is its register (30_encoding.md R73). -/
theorem index_regWord (r : RegIndex) : Fin.ofNat 8 ((regWord r).toNat - 32768) = r :=
  Fin.ext (by simp only [regWord_toNat, Fin.val_ofNat]; omega)

/-- `Resolve` of a source's raw word is the machine's `resolve` of the source. -/
theorem resolve_word {s : State} {o : Operand} (h : o.wellFormed = true) :
    resolve s o.word = (Machine.resolve s o).map DataValue.word := by
  cases o with
  | lit v => exact if_pos (DataValue.word_le v)
  | reg r =>
    have hword := regWord_toNat r
    show resolve s (regWord r) = _
    rw [resolve, index_regWord, if_neg (by omega), if_pos (by omega)]
    by_cases hr : (s.readReg r).toNat ≤ 32767
    · rw [if_neg (by omega), Machine.resolve, if_pos hr]
      exact congrArg Except.ok (DataValue.word_setWidth (by omega)).symm
    · rw [if_pos (by omega), Machine.resolve, if_neg hr]
      rfl
  | bad w =>
    have hw : 32775 < w.toNat := of_decide_eq_true h
    show resolve s w = _
    rw [resolve, if_neg (by omega), if_neg (by omega)]
    rfl

/-- `DestIndex` of a destination's raw word is the machine's `destIndex` of the destination. -/
theorem destIndex_word {d : Destination} (h : d.wellFormed = true) : destIndex d.word = Machine.destIndex d := by
  cases d with
  | reg r =>
    have hword := regWord_toNat r
    show destIndex (regWord r) = _
    rw [destIndex, index_regWord, if_pos (by omega)]
    rfl
  | bad w =>
    have hw : w.toNat < 32768 ∨ 32775 < w.toNat := of_decide_eq_true h
    show destIndex w = _
    rw [destIndex, if_neg (by omega)]
    rfl

/-- The role of an argument (30_encoding.md R74). -/
def role : Argument → Role
  | .source _ => .S
  | .dest _ => .D

/-- The spec's loop over the raw words of arguments ends as their check does (R98). -/
theorem operands_cases {s : State} {args : List Argument} (hwf : ∀ x ∈ args, x.wellFormed = true) :
    (∃ e, operands s (args.map fun x => (role x, x.word)) = .error e ∧
        ∀ k, afterArguments s args k = s.raise e) ∨
      ∃ ds vs, operands s (args.map fun x => (role x, x.word)) = .ok (ds, vs) ∧
        ∀ k, afterArguments s args k = k ds vs := by
  induction args with
  | nil => exact .inr ⟨[], [], rfl, fun _ => rfl⟩
  | cons x rest ih =>
    obtain ⟨hx, hrest⟩ := List.forall_mem_cons.1 hwf
    specialize ih hrest
    rw [List.map_cons]
    generalize rest.map (fun x => (role x, x.word)) = raw at ih ⊢
    cases x with
    | source o =>
      have hres := resolve_word (s := s) hx
      rcases ho : Machine.resolve s o with e | v <;> rw [ho] at hres
      · exact .inl ⟨e, by simp [operands, role, Argument.word, hres, Except.map],
          fun _ => by simp [afterArguments, ho]⟩
      · rcases ih with ⟨e, h, hk⟩ | ⟨ds, vs, h, hk⟩
        · exact .inl ⟨e, by simp [operands, role, Argument.word, hres, Except.map, h],
            fun _ => by simp [afterArguments, ho, hk]⟩
        · exact .inr ⟨ds, v.word :: vs, by simp [operands, role, Argument.word, hres, Except.map, h],
            fun _ => by simp [afterArguments, ho, hk]⟩
    | dest d =>
      have hdest := destIndex_word hx
      rcases hd : Machine.destIndex d with e | r <;> rw [hd] at hdest
      · exact .inl ⟨e, by simp [operands, role, Argument.word, hdest],
          fun _ => by simp [afterArguments, hd]⟩
      · rcases ih with ⟨e, h, hk⟩ | ⟨ds, vs, h, hk⟩
        · exact .inl ⟨e, by simp [operands, role, Argument.word, hdest, h],
            fun _ => by simp [afterArguments, hd, hk]⟩
        · exact .inr ⟨r :: ds, vs, by simp [operands, role, Argument.word, hdest, h],
            fun _ => by simp [afterArguments, hd, hk]⟩

/-! The cells that the pseudocode reads (R91). -/

/-- There is one role for each argument word that follows the opcode word. -/
theorem length_roles (w0 : Word) : (roles.getD w0.toNat []).length = argc w0 :=
  (List.getD_map roles [] List.length).symm

/-- The roles of an instruction's arguments are those that the table gives its opcode word. -/
theorem roles_opcodeWord {i : Instr} (h : i.wellFormed = true) :
    roles.getD i.opcodeWord.toNat [] = i.arguments.map role := by
  cases i with
  | invalid w => exact List.getD_eq_default _ _ (of_decide_eq_true h)
  | _ => rfl

/-- The first address beyond memory among those of the argument words. -/
theorem find_place_beyond {a n : Nat} (ha : a ≤ 32767) (h : 32767 < a + n) :
    ((List.range n).map (a + 1 + ·)).find? (fun x => decide (32767 < x)) = some 32768 := by
  have hfirst : (List.range n).find? ((fun x => decide (32767 < x)) ∘ (a + 1 + ·)) = some (32767 - a) := by
    simp only [List.find?_range_eq_some, Function.comp_apply, decide_eq_true_eq, List.mem_range,
      Bool.not_eq_true', decide_eq_false_iff_not]
    exact ⟨by omega, by omega, fun j hj => by omega⟩
  rw [List.find?_map, hfirst, Option.map_some]
  congr 1
  omega

theorem find_place_within {a n : Nat} (h : a + 1 + n ≤ 32768) :
    ((List.range n).map (a + 1 + ·)).find? (fun x => decide (32767 < x)) = none := by
  refine List.find?_eq_none.2 fun x hx => ?_
  obtain ⟨k, hk, rfl⟩ := List.mem_map.1 hx
  rw [List.mem_range] at hk
  rw [decide_eq_true_eq]
  omega

/-- The word of an argument of the instruction at `ip` stands in its cell. -/
theorem holds_word {s : State} {i : Instr} {k : Nat} {x : Argument} (hi : s.Holds i)
    (hx : i.arguments[k]? = some x) : s.argumentAt (k + 1) = x.word := by
  cases x with
  | source o => exact (word_operandOf _).symm.trans (congrArg Operand.word (hi.source hx))
  | dest d => exact (word_destinationOf _).symm.trans (congrArg Destination.word (hi.dest hx))

/-- The argument words of the instruction at `ip`, with their roles. -/
theorem roles_zip_words {s : State} {i : Instr} (hi : s.Holds i) :
    (roles.getD s.opcodeAt.toNat []).zip
        (((List.range (argc s.opcodeAt)).map (s.ip.toNat + 1 + ·)).map s.mem.read) =
      i.arguments.map fun x => (role x, x.word) := by
  have hwords : ((List.range (argc s.opcodeAt)).map (s.ip.toNat + 1 + ·)).map s.mem.read =
      i.arguments.map Argument.word := by
    refine List.ext_getElem (by simp [hi.count]) fun k _ hk => ?_
    have hk' : k < i.arguments.length := by simpa using hk
    simpa [State.argumentAt, Nat.add_assoc, Nat.add_comm 1] using
      holds_word hi (List.getElem?_eq_getElem hk')
  rw [hwords, hi.opcode, roles_opcodeWord hi.wellFormed, List.zip_map']

section
variable {s : State}

theorem read_ip_eq_opcodeAt : s.mem.read s.ip.toNat = s.opcodeAt := rfl

/-- The address after an instruction, as the pseudocode computes it. -/
theorem ofNat_ip_add (n : Nat) : BitVec.ofNat 16 (s.ip.toNat + n) = s.after n := by
  rw [BitVec.ofNat_add, BitVec.ofNat_toNat, BitVec.setWidth_eq, State.after]

/-- The pseudocode's fetch beyond memory (R91). -/
theorem step_of_beyond (h : 32768 < s.ip.toNat + 1 + argc s.opcodeAt) :
    step s = s.raise ⟨.fetchOutOfRange, BitVec.ofNat 16 (max s.ip.toNat 32768)⟩ := by
  by_cases hip : 32767 < s.ip.toNat
  · rw [max_eq_left (by omega), BitVec.ofNat_toNat, BitVec.setWidth_eq]
    exact if_pos hip
  · have hop : ¬ 21 < s.opcodeAt.toNat := fun hop => by
      rw [argc_invalid hop] at h
      omega
    have hplace := find_place_beyond (a := s.ip.toNat) (n := argc s.opcodeAt) (by omega) (by omega)
    rw [max_eq_right (by omega)]
    simp only [step, if_neg hip, read_ip_eq_opcodeAt, if_neg hop, length_roles, hplace]
    rfl

/-- The pseudocode on an Invalid opcode word (R101). -/
theorem step_of_invalid {w : Word} (hi : s.Holds (.invalid w)) : step s = s.halt .invalidOpcode w := by
  have hbound := hi.bound
  have hw : 21 < s.opcodeAt.toNat := by
    rw [hi.opcode]
    exact of_decide_eq_true hi.wellFormed
  rw [step, if_neg (by omega)]
  refine (if_pos hw).trans ?_
  rw [read_ip_eq_opcodeAt, hi.opcode, ofNat_ip_add]
  rfl

/-- The pseudocode on the words of an instruction that lie in memory (R98, R102). -/
theorem step_of_holds {i : Instr} (hi : s.Holds i) (hvalid : ∀ w, i ≠ .invalid w) :
    step s =
      afterArguments s i.arguments (perform s (s.after (1 + i.arguments.length)) i.opcodeWord.toNat) := by
  have hbound := hi.bound
  have hargc := hi.count
  have hop : ¬ 21 < s.opcodeAt.toNat := by
    rw [hi.opcode]
    cases i with
    | invalid w => exact absurd rfl (hvalid w)
    | _ => simp [Instr.opcodeWord]
  have hplace := find_place_within (a := s.ip.toNat) (n := argc s.opcodeAt) (by omega)
  have hnext : BitVec.ofNat 16 (s.ip.toNat + 1 + argc s.opcodeAt) = s.after (1 + i.arguments.length) := by
    rw [Nat.add_assoc, ← hargc, ofNat_ip_add]
  have hip : ¬ 32767 < s.ip.toNat := by omega
  simp only [step, if_neg hip, read_ip_eq_opcodeAt, if_neg hop, length_roles, hplace, roles_zip_words hi, hnext]
  rcases operands_cases (s := s) (Instr.wellFormed_arguments hi.wellFormed) with ⟨e, h, hk⟩ | ⟨ds, vs, h, hk⟩
  · simp only [h, hk]
    rfl
  · simp only [h, hk, hi.opcode]

end

end Sys2Proof.Pseudocode

namespace Sys2Proof.Machine

/-- Settles O8: both sides fetch the same words; the arguments are checked alike, and an opcode's execute phase is
its planned change. -/
theorem stepIsThePseudocode : Obligations.StepIsThePseudocode := by
  intro s hr
  rcases Nat.lt_or_ge 32768 (s.ip.toNat + 1 + argc s.opcodeAt) with hbeyond | hle
  · rw [step_of_fetch_beyond hr hbeyond, Pseudocode.step_of_beyond hbeyond]
  · obtain ⟨i, hi, hs⟩ := exists_holds_of_le hr hle
    by_cases hinvalid : ∃ w, i = .invalid w
    · obtain ⟨w, rfl⟩ := hinvalid
      rw [hs, Pseudocode.step_of_invalid hi]
      rfl
    · rw [hs, exec_eq_apply, Pseudocode.plan_apply_eq_afterArguments (not_exists.1 hinvalid),
        Pseudocode.step_of_holds hi (not_exists.1 hinvalid)]

end Sys2Proof.Machine
end

section
/-! What SET, EQ, GT, ADD, MULT, MOD, AND, OR and NOT write into a register where their sources have values
(41_arith_logic.md R112 to R120). -/

namespace Sys2Proof.Machine

/-! The ALU's bitwise results and comparisons, by the numbers of its operands. -/

theorem Alu.eq_toNat (b c : DataValue) : Alu.eq b c = if b.toNat = c.toNat then 1 else 0 := by
  simp [Alu.eq, truthWord]

theorem Alu.gt_toNat (b c : DataValue) : Alu.gt b c = if c.toNat < b.toNat then 1 else 0 := by
  simp [Alu.gt, truthWord]

theorem Alu.and_toNat (b c : DataValue) : Alu.and b c = BitVec.ofNat 16 (b.toNat &&& c.toNat) := by
  rw [Alu.and, DataValue.word_eq, DataValue.word_eq, BitVec.ofNat_and]

theorem Alu.or_toNat (b c : DataValue) : Alu.or b c = BitVec.ofNat 16 (b.toNat ||| c.toNat) := by
  rw [Alu.or, DataValue.word_eq, DataValue.word_eq, BitVec.ofNat_or]

/-- The 16-bit complement with bit 15 cleared is the complement among the 15-bit data values. -/
theorem Alu.not_eq_word (b : DataValue) : Alu.not b = DataValue.word (~~~b) := by
  apply BitVec.eq_of_toNat_eq
  have hmask : (65535 - b.toNat) &&& 32767 = (65535 - b.toNat) % 32768 := Nat.and_two_pow_sub_one_eq_mod _ 15
  have hnot : (Alu.not b).toNat = (65535 - b.toNat) &&& 32767 := by
    simp only [Alu.not, BitVec.toNat_and, BitVec.toNat_not, DataValue.toNat_word]
    rfl
  rw [hnot, hmask, DataValue.toNat_word, BitVec.toNat_not]
  omega

theorem Alu.not_toNat (b : DataValue) : Alu.not b = BitVec.ofNat 16 (32767 - b.toNat) := by
  rw [Alu.not_eq_word, DataValue.word_eq, BitVec.toNat_not]

section
variable {s : State} {d : RegIndex} {b c : Operand}

/-! An instruction whose sources resolve completes. -/

theorem unary_of_resolve (f : DataValue → Word) {u : DataValue} (hb : resolve s b = .ok u) :
    unary f (.reg d) b s = complete s d (f u) 3 :=
  withSource_ok hb _

theorem binary_of_resolve (f : DataValue → DataValue → Word) {u w : DataValue} (hb : resolve s b = .ok u)
    (hc : resolve s c = .ok w) : binary f (.reg d) b c s = complete s d (f u w) 4 :=
  (withSource_ok hb _).trans (withSource_ok hc _)

theorem exec_mod_of_some {u w : DataValue} {r : Word} (hb : resolve s b = .ok u) (hc : resolve s c = .ok w)
    (h : Alu.mod u w = some r) : exec (.mod (.reg d) b c) s = complete s d r 4 :=
  (withSource_ok hb _).trans ((withSource_ok hc _).trans (by simp only [h]))

theorem exec_mod_of_none {u w : DataValue} (hb : resolve s b = .ok u) (hc : resolve s c = .ok w)
    (h : Alu.mod u w = none) : exec (.mod (.reg d) b c) s = .next (s.raise ⟨.divideByZero, 0⟩) :=
  (withSource_ok hb _).trans ((withSource_ok hc _).trans (by simp only [h]))

/-! The same by the values of the sources: `x` is the result on every data value of that number. -/

theorem unary_of_sourceValue {f : DataValue → Word} {vb : Nat} {x : Word} (hb : sourceValue s b = some vb)
    (hx : ∀ u : DataValue, u.toNat = vb → f u = x) :
    unary f (.reg d) b s = .next { s with regs := s.regs.set d x, ip := s.ip + 3 } := by
  obtain ⟨u, hu, huv, -⟩ := resolve_of_sourceValue hb
  rw [unary_of_resolve f hu, hx u huv]
  rfl

theorem binary_of_sourceValue {f : DataValue → DataValue → Word} {vb vc : Nat} {x : Word}
    (hb : sourceValue s b = some vb) (hc : sourceValue s c = some vc)
    (hx : ∀ u w : DataValue, u.toNat = vb → w.toNat = vc → f u w = x) :
    binary f (.reg d) b c s = .next { s with regs := s.regs.set d x, ip := s.ip + 4 } := by
  obtain ⟨u, hu, huv, -⟩ := resolve_of_sourceValue hb
  obtain ⟨w, hw, hwv, -⟩ := resolve_of_sourceValue hc
  rw [binary_of_resolve f hu hw, hx u w huv hwv]
  rfl

end

/-- Settles O22: SET's result is the word of its source's value. -/
theorem setWritesItsSource : Obligations.SetWritesItsSource := by
  intro s d b vb hb
  exact unary_of_sourceValue hb fun u hu => hu ▸ DataValue.word_eq u

/-- Settles O23: the two comparisons of the ALU, by the numbers of their operands. -/
theorem comparisonsWriteOneOrZero : Obligations.ComparisonsWriteOneOrZero := by
  intro s d b c vb vc hb hc
  constructor
  · exact binary_of_sourceValue hb hc fun u w hu hw => hu ▸ hw ▸ Alu.eq_toNat u w
  · exact binary_of_sourceValue hb hc fun u w hu hw => hu ▸ hw ▸ Alu.gt_toNat u w

/-- Settles O24: the ALU's sum is defined on the operands' numbers. -/
theorem addWritesTheSumModulo32768 : Obligations.AddWritesTheSumModulo32768 := by
  intro s d b c vb vc hb hc
  exact binary_of_sourceValue hb hc fun u w hu hw => hu ▸ hw ▸ rfl

/-- Settles O25: the ALU's product is defined on the operands' numbers. -/
theorem multWritesTheProductModulo32768 : Obligations.MultWritesTheProductModulo32768 := by
  intro s d b c vb vc hb hc
  exact binary_of_sourceValue hb hc fun u w hu hw => hu ▸ hw ▸ rfl

/-- Settles O26: the ALU has a remainder exactly for a nonzero divisor. -/
theorem modWritesTheRemainderOrFaults : Obligations.ModWritesTheRemainderOrFaults := by
  intro s d b c vb vc hb hc
  obtain ⟨u, hu, rfl, -⟩ := resolve_of_sourceValue hb
  obtain ⟨w, hw, rfl, -⟩ := resolve_of_sourceValue hc
  constructor
  · intro hnonzero
    exact exec_mod_of_some hu hw (if_neg hnonzero)
  · intro hzero
    exact exec_mod_of_none hu hw (if_pos hzero)

/-- Settles O27: the bitwise results of the ALU, by the numbers of their operands. -/
theorem bitwiseInstructionsWriteTheirResult : Obligations.BitwiseInstructionsWriteTheirResult := by
  intro s d b c vb vc hb hc
  refine ⟨?_, ?_, ?_⟩
  · exact binary_of_sourceValue hb hc fun u w hu hw => hu ▸ hw ▸ Alu.and_toNat u w
  · exact binary_of_sourceValue hb hc fun u w hu hw => hu ▸ hw ▸ Alu.or_toNat u w
  · exact unary_of_sourceValue hb fun u hu => hu ▸ Alu.not_toNat u

/-- A source holding the complement of a data value is complemented back to it (R120). -/
theorem Alu.not_of_word_eq_not {u w : DataValue} (h : w.word = Alu.not u) : Alu.not w = u.word := by
  rw [Alu.not_eq_word, DataValue.word_inj] at h
  rw [Alu.not_eq_word, h, BitVec.not_not]

theorem exec_not {s : State} {d : RegIndex} {b : Operand} {u : DataValue} (hb : resolve s b = .ok u) :
    exec (.not_ (.reg d) b) s = .next ((s.writeReg d (Alu.not u)).setIp (s.after 3)) :=
  unary_of_resolve Alu.not hb

/-- Settles O48: the first NOT leaves the complement, a data value, in `d`; the second complements it back. -/
theorem notTwiceRestoresTheValue : Obligations.NotTwiceRestoresTheValue := by
  intro s d e b v hv
  obtain ⟨u, hu, -, hword⟩ := resolve_of_sourceValue hv
  have hfirst := exec_not (d := d) hu
  generalize hs' : (s.writeReg d (Alu.not u)).setIp (s.after 3) = s' at hfirst
  have hd : s'.readReg d = Alu.not u := by simp [← hs']
  obtain ⟨w, hw, hwd⟩ := resolve_reg_of_le (s := s') (r := d) (hd ▸ Alu.not_le u)
  have hnot : Alu.not w = BitVec.ofNat 16 v := (Alu.not_of_word_eq_not (hwd.trans hd)).trans hword
  have hsecond := exec_not (d := e) hw
  refine ⟨_, by simp only [execAll, hfirst, hsecond]; rfl, by simp [hnot], fun r hrd hre => ?_⟩
  simp [State.readReg_writeReg_ne, hrd.symm, hre.symm, ← hs']

end Sys2Proof.Machine
end

section
/-! What PUSH, POP, CALL, RET and the jumps do where their sources have values, and what runs of them do
(42_stack_control.md R131 to R143). -/

namespace Sys2Proof.Machine

section
variable {s : State}

/-! The stack: a push where there is room and where there is none, and a top entry removed. -/

theorem pushThen_of_room (h : s.stackCapacity ≠ some s.stack.length) (v x : Word) :
    pushThen s v x = .next ((s.pushWord v).setIp x) :=
  if_neg (mt s.stackFull_iff.1 h)

theorem pushThen_of_full (h : s.stackCapacity = some s.stack.length) (v x : Word) :
    pushThen s v x = .next (s.raise ⟨.stackOverflow, 0⟩) :=
  if_pos (s.stackFull_iff.2 h)

theorem State.dropTop_of_append {rest : List Word} {w : Word} (h : s.stack = rest ++ [w]) :
    s.dropTop = { s with stack := rest } := by
  rw [State.dropTop, h, List.dropLast_concat]

/-! PUSH and CALL are pushes of a word that their source's value fixes. -/

theorem exec_push {a : Operand} {va : Nat} (ha : sourceValue s a = some va) :
    exec (.push a) s = pushThen s (BitVec.ofNat 16 va) (s.after 2) := by
  obtain ⟨u, hu, -, hword⟩ := resolve_of_sourceValue ha
  rw [← hword]
  exact withSource_ok hu _

theorem exec_call {a : Operand} {va : Nat} (ha : sourceValue s a = some va) :
    exec (.call a) s = pushThen s (s.after 2) (BitVec.ofNat 16 va) := by
  obtain ⟨u, hu, -, hword⟩ := resolve_of_sourceValue ha
  rw [← hword]
  exact withSource_ok hu _

/-! POP and RET take the top entry, if there is one. -/

theorem exec_pop_of_append {rest : List Word} {w : Word} (h : s.stack = rest ++ [w]) (d : RegIndex) :
    exec (.pop (.reg d)) s = .next { s with regs := s.regs.set d w, stack := rest, ip := s.ip + 2 } := by
  have htop : s.stack.getLast? = some w := by rw [h, List.getLast?_concat]
  rw [exec, execPop, withDest_reg, htop, State.dropTop_of_append h]
  rfl

theorem exec_pop_of_empty (h : s.stack = []) (d : RegIndex) :
    exec (.pop (.reg d)) s = .next (s.raise ⟨.stackUnderflow, 0⟩) := by
  rw [exec, execPop, withDest_reg, h, List.getLast?_nil]

theorem exec_ret_of_append {rest : List Word} {w : Word} (h : s.stack = rest ++ [w]) :
    exec .ret s = .next { s with stack := rest, ip := w } := by
  have htop : s.stack.getLast? = some w := by rw [h, List.getLast?_concat]
  rw [exec, execRet, htop, State.dropTop_of_append h]
  rfl

theorem exec_ret_of_empty (h : s.stack = []) : exec .ret s = .next (s.halt .emptyStackReturn 0) := by
  rw [exec, execRet, h, List.getLast?_nil]

/-- A conditional jump whose condition says `P` of the number of the first source. -/
theorem jumpIf_of_sourceValue {taken : DataValue → Bool} {P : Nat → Prop} [DecidablePred P] {a b : Operand}
    {va vb : Nat} (ha : sourceValue s a = some va) (hb : sourceValue s b = some vb)
    (htaken : ∀ u : DataValue, taken u = true ↔ P u.toNat) :
    jumpIf taken a b s = .next { s with ip := if P va then BitVec.ofNat 16 vb else s.ip + 3 } := by
  obtain ⟨u, hu, rfl, -⟩ := resolve_of_sourceValue ha
  obtain ⟨w, hw, -, hword⟩ := resolve_of_sourceValue hb
  rw [jumpIf, withSource_ok hu, withSource_ok hw, hword]
  simp only [htaken u]
  rfl

end

/-- Settles O28: PUSH is a push of its source's value. -/
theorem pushAppendsItsSource : Obligations.PushAppendsItsSource := by
  intro s a va ha
  rw [exec_push ha]
  exact ⟨fun hroom => pushThen_of_room hroom _ _, fun hfull => pushThen_of_full hfull _ _⟩

/-- Settles O30: CALL is a push of the address after its argument. -/
theorem callPushesTheReturnAddress : Obligations.CallPushesTheReturnAddress := by
  intro s a va ha
  rw [exec_call ha]
  exact ⟨fun hroom => pushThen_of_room hroom _ _, fun hfull => pushThen_of_full hfull _ _⟩

/-- Settles O29: by whether the stack has a top entry. -/
theorem popMovesTheTopEntry : Obligations.PopMovesTheTopEntry :=
  fun _ d => ⟨fun _ _ h => exec_pop_of_append h d, fun h => exec_pop_of_empty h d⟩

/-- Settles O31: by whether the stack has a top entry. -/
theorem retPopsIntoIpOrHalts : Obligations.RetPopsIntoIpOrHalts :=
  fun _ => ⟨fun _ _ h => exec_ret_of_append h, exec_ret_of_empty⟩

/-- Settles O32: JT is taken on a nonzero first source and JF on zero. -/
theorem jumpsSetIp : Obligations.JumpsSetIp := by
  intro s a b va vb ha hb
  refine ⟨?_, ?_, ?_⟩
  · obtain ⟨u, hu, -, hword⟩ := resolve_of_sourceValue ha
    rw [← hword]
    exact withSource_ok hu _
  · exact jumpIf_of_sourceValue (P := (· ≠ 0)) ha hb fun _ => isNonzero_iff
  · exact jumpIf_of_sourceValue (P := (· = 0)) ha hb fun _ => isZero_iff

/-! A CALL whose target holds RET (R138). -/

section
variable {s : State}

/-- A step by the opcode word at `ip`, where that is known. -/
theorem step_of_opcode {w0 : Word} {i : Instr} {left : List Word} (hr : s.run = .running)
    (hop : s.opcodeAt = w0) (hle : s.ip.toNat + 1 + argc w0 ≤ 32768)
    (hd : decode (w0 :: (List.range' (s.ip.toNat + 1) (argc w0)).map s.mem.read) = .ok (i, left)) :
    step s = exec i s := by
  subst hop
  exact step_eq_exec hr hle hd

theorem step_of_call (hr : s.run = .running) (hle : s.ip.toNat + 2 ≤ 32768) (hop : s.opcodeAt = 17) :
    step s = exec (.call (operandOf (s.argumentAt 1))) s :=
  step_of_opcode hr hop hle rfl

theorem step_of_ret (hr : s.run = .running) (hle : s.ip.toNat + 1 ≤ 32768) (hop : s.opcodeAt = 18) :
    step s = exec .ret s :=
  step_of_opcode hr hop hle rfl

end

/-- Settles O46: the CALL leaves the address after it on top of the stack, and the RET at its target pops it. -/
theorem callThenRetReturns : Obligations.CallThenRetReturns := by
  intro s v hr hip hop hv hret hroom
  obtain ⟨u, -, rfl, hword⟩ := resolve_of_sourceValue hv
  have hcall := (step_of_call hr (by omega) hop).trans ((exec_call hv).trans (pushThen_of_room hroom _ _))
  rw [← hword] at hcall
  generalize hs' : (s.pushWord (s.after 2)).setIp u.word = s' at hcall
  have hip' : s'.ip.toNat = u.toNat := by rw [← hs', State.setIp_ip, DataValue.toNat_word]
  have hop' : s'.opcodeAt = 18 := by rw [State.opcodeAt, hip', ← hs']; exact hret
  have hstack' : s'.stack = s.stack ++ [s.after 2] := by rw [← hs']; rfl
  have hstep := (step_of_ret (s := s') (by rw [← hs']; exact hr) (by omega) hop').trans
    (exec_ret_of_append hstack')
  rw [run_next 1 hcall, run_next 0 hstep, run_zero, ← hs']
  rfl

/-! Runs of PUSH and of POP (R132). -/

/-- The value of a source is read from the registers alone. -/
theorem sourceValue_congr {s t : State} (h : t.regs = s.regs) (o : Operand) :
    sourceValue t o = sourceValue s o := by
  cases o with
  | reg r => simp only [sourceValue, State.readReg_congr h]
  | _ => rfl

section
variable {s t : State}

theorem execAll_cons {i : Instr} (h : exec i s = .next t) (rest : List Instr) :
    execAll (i :: rest) s = execAll rest t := by
  simp only [execAll, h]

/-- A run that completes goes on from the state it leaves. -/
theorem execAll_append {is : List Instr} (h : execAll is s = .next t) (rest : List Instr) :
    execAll (is ++ rest) s = execAll rest t := by
  induction is generalizing s with
  | nil =>
    obtain rfl : s = t := by simpa [execAll] using h
    rfl
  | cons i is ih =>
    rw [execAll_cons (exec_eq_apply i s)] at h
    exact (execAll_cons (exec_eq_apply i s) _).trans (ih h)

/-- PUSHes on an unbounded stack keep the registers, so each source keeps its value until its turn. -/
theorem execAll_push {ops : List Operand} {vs : List Nat} (hcap : s.stackCapacity = none)
    (hvs : ops.map (sourceValue s) = vs.map some) :
    ∃ t, execAll (ops.map Instr.push) s = .next t ∧ t.regs = s.regs ∧
      t.stack = s.stack ++ vs.map (BitVec.ofNat 16) := by
  induction ops generalizing s vs with
  | nil =>
    obtain rfl : vs = [] := by simpa using hvs.symm
    exact ⟨s, rfl, rfl, by simp⟩
  | cons o ops ih =>
    obtain ⟨v, vs, rfl, ho, hops⟩ := List.map_eq_cons_iff.1 hvs.symm
    have hroom : s.stackCapacity ≠ some s.stack.length := by simp [hcap]
    have hpush := (exec_push ho.symm).trans (pushThen_of_room hroom _ _)
    generalize hs' : (s.pushWord (BitVec.ofNat 16 v)).setIp (s.after 2) = s' at hpush
    have hregs' : s'.regs = s.regs := by rw [← hs']; rfl
    have hops' : ops.map (sourceValue s') = vs.map some := by rw [funext (sourceValue_congr hregs'), hops]
    obtain ⟨t, hrun, hregs, hstack⟩ := ih (by rw [← hs']; exact hcap) hops'
    refine ⟨t, (execAll_cons hpush _).trans hrun, hregs.trans hregs', ?_⟩
    rw [hstack, ← hs']
    simp

/-- POPs into distinct registers hand out the entries from the top down: no later POP overwrites a register. -/
theorem execAll_pop {rs : List RegIndex} {us base : List Word} (hnodup : rs.Nodup)
    (hlen : rs.length = us.length) (hstack : s.stack = base ++ us.reverse) :
    ∃ t, execAll (rs.map fun r => Instr.pop (.reg r)) s = .next t ∧ t.stack = base ∧
      rs.map t.readReg = us ∧ ∀ r, r ∉ rs → t.readReg r = s.readReg r := by
  induction rs generalizing s us with
  | nil =>
    obtain rfl : us = [] := List.length_eq_zero_iff.1 hlen.symm
    exact ⟨s, rfl, by simpa using hstack, rfl, fun _ _ => rfl⟩
  | cons r rs ih =>
    obtain ⟨u, us, rfl⟩ := List.exists_cons_of_length_eq_add_one hlen.symm
    obtain ⟨hr, hnodup⟩ := List.nodup_cons.1 hnodup
    rw [List.reverse_cons, ← List.append_assoc] at hstack
    have hpop := exec_pop_of_append hstack r
    generalize hs' : ({ s with regs := s.regs.set r u, stack := base ++ us.reverse, ip := s.ip + 2 } : State) =
      s' at hpop
    have hstack' : s'.stack = base ++ us.reverse := by rw [← hs']
    have hregs' : s'.regs = (s.writeReg r u).regs := by rw [← hs']; rfl
    obtain ⟨t, hrun, hbase, hread, hother⟩ := ih hnodup (Nat.succ.inj hlen) hstack'
    refine ⟨t, (execAll_cons hpop _).trans hrun, hbase, ?_, fun q hq => ?_⟩
    · rw [List.map_cons, hread, hother r hr, State.readReg_congr hregs', State.readReg_writeReg_same]
    · obtain ⟨hqr, hqs⟩ := List.ne_and_not_mem_of_not_mem_cons hq
      rw [hother q hqs, State.readReg_congr hregs', State.readReg_writeReg_ne _ _ (Ne.symm hqr)]

end

/-- Settles O47: the PUSHes stack the values up, and the POPs take them from the top down. -/
theorem pushesThenPopsReverse : Obligations.PushesThenPopsReverse := by
  intro s ops vs rs hcap hvs hnodup hlen
  obtain ⟨m, hpush, hregs, hstack⟩ := execAll_push hcap hvs
  have hstack' : m.stack = s.stack ++ (vs.reverse.map (BitVec.ofNat 16)).reverse := by simpa using hstack
  obtain ⟨t, hpop, hbase, hread, hother⟩ := execAll_pop hnodup (by simpa using hlen) hstack'
  refine ⟨t, (execAll_append hpush _).trans hpop, hbase, hread, fun r hr => ?_⟩
  rw [hother r hr, State.readReg_congr hregs]

end Sys2Proof.Machine
end

section
/-! What RMEM, WMEM, OUT and IN do where their operands are legal, that WMEM alone changes memory, and how the
wait of an IN ends (43_memory_io.md R151 to R158). -/

namespace Sys2Proof

/-- The low 8 bits of a data value, by its number. -/
theorem DataValue.setWidth_eight (v : DataValue) : v.setWidth 8 = BitVec.ofNat 8 (v.toNat % 256) := by
  apply BitVec.eq_of_toNat_eq
  simp

end Sys2Proof

namespace Sys2Proof.Machine

section
variable {s : State}

theorem exec_rmem {d : RegIndex} {b : Operand} {u : DataValue} (hb : resolve s b = .ok u) :
    exec (.rmem (.reg d) b) s = complete s d (s.mem.read u.toNat) 3 :=
  withSource_ok hb _

theorem exec_out {a : Operand} {u : DataValue} (ha : resolve s a = .ok u) :
    exec (.out a) s = .next ((s.emit (u.setWidth 8)).setIp (s.after 2)) :=
  withSource_ok ha _

/-! IN takes the head of the queue, faults at the end of the input, or waits. -/

theorem State.dropInput_of_cons {b : Byte} {rest : List Byte} (h : s.inp.queue = b :: rest) :
    s.dropInput = { s with inp := { s.inp with queue := rest } } := by
  rw [State.dropInput, h, List.tail_cons]

theorem exec_in_of_cons {b : Byte} {rest : List Byte} (h : s.inp.queue = b :: rest) (d : RegIndex) :
    exec (.in_ (.reg d)) s =
      .next { s with regs := s.regs.set d (BitVec.ofNat 16 b.toNat), inp := { s.inp with queue := rest },
                     ip := s.ip + 2 } := by
  rw [exec, execIn, withDest_reg, InputChannel.answer_byte.2 ⟨rest, h⟩, State.dropInput_of_cons h,
    BitVec.ofNat_toNat]
  rfl

theorem exec_in_of_eof (hq : s.inp.queue = []) (hc : s.inp.closed = true) (d : RegIndex) :
    exec (.in_ (.reg d)) s = .next (s.raise ⟨.inputExhausted, 0⟩) := by
  rw [exec, execIn, withDest_reg, InputChannel.answer_eof.2 ⟨hq, hc⟩]

theorem exec_in_of_notReady (hq : s.inp.queue = []) (hc : s.inp.closed = false) (d : RegIndex) :
    exec (.in_ (.reg d)) s = .next s := by
  rw [exec, execIn, withDest_reg, InputChannel.answer_notReady.2 ⟨hq, hc⟩]

end

/-- Settles O33: the cell's word is written as it is. -/
theorem rmemCopiesTheCell : Obligations.RmemCopiesTheCell := by
  intro s d b vb hb
  obtain ⟨u, hu, rfl, -⟩ := resolve_of_sourceValue hb
  exact exec_rmem hu

/-- Settles O34: the memory it answers is the one after the write of the second value at the first. -/
theorem wmemStoresOneCell : Obligations.WmemStoresOneCell := by
  intro s a b va vb hwf ha hb
  obtain ⟨u, hu, rfl, -⟩ := resolve_of_sourceValue ha
  obtain ⟨w, hw, -, hword⟩ := resolve_of_sourceValue hb
  rw [← hword]
  exact ⟨_, exec_wmem hu hw, rfl, Memory.read_write hwf u.isLt w.word, Memory.wf_write hwf u.toNat w.word⟩

/-- Settles O35: the byte emitted is the value modulo 256. -/
theorem outEmitsTheLowByte : Obligations.OutEmitsTheLowByte := by
  intro s a va ha
  obtain ⟨u, hu, rfl, -⟩ := resolve_of_sourceValue ha
  rw [exec_out hu, DataValue.setWidth_eight]
  rfl

/-- Settles O36: by the channel's answer. -/
theorem inReadsOneByte : Obligations.InReadsOneByte :=
  fun _ d => ⟨fun _ _ h => exec_in_of_cons h d, fun hq hc => exec_in_of_eof hq hc d,
    fun hq hc => exec_in_of_notReady hq hc d⟩

/-- Settles O50: the wait, the queue that starts with the supplied byte, and the end of the closed input. -/
theorem waitingInEndsByTheEnvironment : Obligations.WaitingInEndsByTheEnvironment := by
  intro s d b bs hinp
  have hsupplied : (s.supplyInput (b :: bs)).inp = ⟨b :: bs, false⟩ := by simp [hinp]
  have hclosed : s.closeInput.inp = ⟨[], true⟩ := by simp [hinp]
  refine ⟨?_, ?_, ?_⟩
  · exact exec_in_of_notReady (by rw [hinp]) (by rw [hinp]) d
  · rw [exec_in_of_cons (by rw [hsupplied]) d, hsupplied]
    rfl
  · rw [exec_in_of_eof (by rw [hclosed]) (by rw [hclosed]) d, ← hclosed]
    rfl

/-- A cell that reads differently after a write is the one written, and reads as what was written. -/
theorem Memory.eq_of_read_write_ne {m : Memory} (h : m.wf = true) {a b : Nat} (ha : a < 32768) {v : Word}
    (hne : (m.write a v).read b ≠ m.read b) : b = a ∧ (m.write a v).read b = v := by
  obtain rfl : b = a := by_contra fun hb => hne (Memory.read_write_ne h ha hb v)
  exact ⟨rfl, Memory.read_write_same h ha v⟩

/-- Settles O38: the one change that touches memory is WMEM's. -/
theorem onlyWmemChangesMemory : Obligations.OnlyWmemChangesMemory := by
  intro s t a hwf h hne
  rcases step_cases h with ⟨-, rfl⟩ | ⟨-, e, rfl⟩ | ⟨i, c, hr, hi, hc, rfl⟩
  · exact absurd rfl hne
  · exact absurd rfl hne
  cases c with
  | writeMem a' v x =>
    obtain ⟨o, p, u, w, rfl, ho, hp, rfl, rfl, -⟩ := hc
    obtain ⟨rfl, hread⟩ := Memory.eq_of_read_write_ne hwf u.isLt hne
    refine ⟨hr, hi.opcode, ?_, w.toNat, ?_, hread.trans (DataValue.word_eq w)⟩
    · rw [hi.source (k := 0) rfl, resolve_eq_ok.1 ho]
    · rw [hi.source (k := 1) rfl, resolve_eq_ok.1 hp]
  | _ => exact absurd rfl hne

end Sys2Proof.Machine
end

section
/-! The ends of a run: a fatal fault changes `RUN` alone and has its cause in the table of 60_exceptions.md R175; a
graceful halt has one of the three causes of R171. -/

namespace Sys2Proof.Machine

section
variable {s t : State} {i : Instr}

/-- The one change that takes a running machine to a fatal fault is that fault. -/
theorem eq_fault_of_faulted (hr : s.run = .running) {c : Change} {k : FaultKind} {info : Word}
    (h : (c.apply s).run = .faulted k info) : c = .fault ⟨k, info⟩ := by
  cases c with
  | fault e =>
    cases h
    rfl
  | halt r info => cases h
  | _ => cases hr.symm.trans h

/-- The one change that takes a running machine to a graceful halt is that halt. -/
theorem eq_halt_of_halted (hr : s.run = .running) {c : Change} {r : HaltReason} {info : Word}
    (h : (c.apply s).run = .halted r info) : c = .halt r info := by
  cases c with
  | fault e => cases h
  | halt r info =>
    cases h
    rfl
  | _ => cases hr.symm.trans h

/-- The fault of one of the arguments has that argument for its cause. -/
theorem faultCause_of_argumentFault {x : Argument} {e : FaultEvent} (hx : x ∈ i.arguments)
    (he : argumentFault s x = some e) : faultCause s i e.kind e.info := by
  match x with
  | .source (.lit _) => cases he
  | .source (.reg r) =>
    rw [argumentFault_reg] at he
    split at he
    · obtain rfl := Option.some.inj he
      exact ⟨r, hx, ‹_›, regWord_toNat r⟩
    · cases he
  | .source (.bad w) =>
    obtain rfl := Option.some.inj he
    exact hx
  | .dest (.reg _) => cases he
  | .dest (.bad w) =>
    obtain rfl := Option.some.inj he
    exact hx

theorem Alu.mod_eq_none {b c : DataValue} : Alu.mod b c = none ↔ c.toNat = 0 := by
  simp [Alu.mod]

/-- A push faults only on a full stack. -/
theorem faultCause_of_pushThen (hr : s.run = .running) (hi : (∃ a, i = .push a) ∨ ∃ a, i = .call a) {v x : Word}
    (h : pushThen s v x = .next t) {k : FaultKind} {info : Word} (hf : t.run = .faulted k info) :
    faultCause s i k info := by
  rcases pushThen_next h with ⟨-, rfl⟩ | ⟨hfull, rfl⟩
  · cases hr.symm.trans hf
  · cases hf
    exact ⟨rfl, hfull, hi⟩

/-- Among the effects of instructions whose arguments are legal, only those of PUSH, CALL, POP, IN and MOD can
fault, each for its one cause. -/
theorem faultCause_of_effect (hr : s.run = .running) (h : Effect s t i) {k : FaultKind} {info : Word}
    (hf : t.run = .faulted k info) : faultCause s i k info := by
  have hrun : t.run ≠ s.run := fun he => by cases hr.symm.trans (he.symm.trans hf)
  cases i with
  | push a =>
    obtain ⟨va, -, h⟩ := h
    exact faultCause_of_pushThen hr (.inl ⟨a, rfl⟩) h hf
  | call a =>
    obtain ⟨va, -, h⟩ := h
    exact faultCause_of_pushThen hr (.inr ⟨a, rfl⟩) h hf
  | pop a =>
    obtain ⟨d, -, ⟨hempty, rfl⟩ | ⟨w, -, rfl⟩⟩ := h
    · cases hf
      exact ⟨rfl, hempty, a, rfl⟩
    · exact absurd rfl hrun
  | in_ a =>
    obtain ⟨d, -, ⟨b, -, rfl⟩ | ⟨heof, rfl⟩ | ⟨-, rfl⟩⟩ := h
    · exact absurd rfl hrun
    · cases hf
      obtain ⟨hqueue, hclosed⟩ := InputChannel.answer_eof.1 heof
      exact ⟨rfl, hqueue, hclosed, a, rfl⟩
    · exact absurd rfl hrun
  | mod a b c =>
    obtain ⟨d, vb, vc, -, -, hc, ⟨hzero, rfl⟩ | ⟨r, -, rfl⟩⟩ := h
    · cases hf
      exact ⟨rfl, a, b, c, rfl, Alu.mod_eq_none.1 hzero ▸ resolve_eq_ok.1 hc⟩
    · exact absurd rfl hrun
  | ret =>
    obtain ⟨-, rfl⟩ | ⟨w, -, rfl⟩ := h
    · cases hf
    · exact absurd rfl hrun
  | halt | invalid w =>
    subst h
    cases hf
  | noop =>
    subst h
    exact absurd rfl hrun
  | jmp a | out a =>
    obtain ⟨va, -, rfl⟩ := h
    exact absurd rfl hrun
  | set a b | not_ a b | rmem a b | jt a b | jf a b | wmem a b =>
    obtain ⟨_, _, -, -, rfl⟩ := h
    exact absurd rfl hrun
  | eq a b c | gt a b c | add a b c | mult a b c | and_ a b c | or_ a b c =>
    obtain ⟨d, vb, vc, -, -, -, rfl⟩ := h
    exact absurd rfl hrun

/-- A step of a running machine halts where a cause of a graceful halt holds, if `ip` is in memory. -/
theorem step_of_haltCause (hr : s.run = .running) (hip : s.ip.toNat ≤ 32767) {r : HaltReason} {info : Word}
    (h : haltCause s r info) : step s = .next (s.halt r info) := by
  have hle : s.ip.toNat + 1 ≤ 32768 := Nat.succ_le_succ hip
  cases r with
  | haltOpcode =>
    obtain ⟨hop, rfl⟩ := h
    exact step_of_opcode (left := []) hr hop hle rfl
  | emptyStackReturn =>
    obtain ⟨hop, hempty, rfl⟩ := h
    exact (step_of_ret hr hle hop).trans (exec_ret_of_empty hempty)
  | invalidOpcode =>
    obtain ⟨hop, rfl⟩ := h
    exact step_of_invalid hr hle hop

/-- The instruction at `ip` halts for a cause of R171. -/
theorem haltCause_of_performs (hi : s.Holds i) {r : HaltReason} {info : Word}
    (h : Performs s i (.halt r info)) : haltCause s r info := by
  cases r with
  | haltOpcode =>
    obtain ⟨rfl, rfl⟩ := h
    exact ⟨hi.opcode, rfl⟩
  | emptyStackReturn =>
    obtain ⟨rfl, hempty, rfl⟩ := h
    exact ⟨hi.opcode, hempty, rfl⟩
  | invalidOpcode =>
    obtain rfl : i = .invalid info := h
    have hop : s.opcodeAt = info := hi.opcode
    exact ⟨hop ▸ of_decide_eq_true hi.wellFormed, hop.symm⟩

/-- A step that halts a running machine does so for a cause, at an `ip` in memory, and is that halt. -/
theorem halt_of_step (hr : s.run = .running) (hs : step s = .next t) {r : HaltReason} {info : Word}
    (h : t.run = .halted r info) : s.ip.toNat ≤ 32767 ∧ haltCause s r info ∧ t = s.halt r info := by
  rcases step_cases hs with ⟨hr', -⟩ | ⟨-, e, rfl⟩ | ⟨i, c, -, hi, hc, rfl⟩
  · exact absurd hr hr'
  · cases h
  · obtain rfl := eq_halt_of_halted hr h
    have hbound := hi.bound
    exact ⟨by omega, haltCause_of_performs hi hc, rfl⟩

end

/-- Settles O18: the step's change can only be the fault itself. -/
theorem fatalFaultChangesRunAlone : Obligations.FatalFaultChangesRunAlone := by
  intro s t k info hr hs hf
  rw [eq_apply_of_step hs] at hf ⊢
  rw [eq_fault_of_faulted hr hf]
  rfl

/-- Settles O19: the first argument that raises is the cause, or else the instruction's effect faults. -/
theorem fatalFaultsComeFromTheirCauses : Obligations.FatalFaultsComeFromTheirCauses := by
  intro s t i k info hr hexec hf
  rcases exec_next hexec with ⟨e, he, rfl⟩ | heffect
  · obtain ⟨x, hx, hxe⟩ := List.exists_of_findSome?_eq_some he
    cases hf
    exact faultCause_of_argumentFault hx hxe
  · exact faultCause_of_effect hr heffect hf

/-- Settles O20: where a cause holds the step is its halt, and a step that halts has that cause. -/
theorem gracefulHaltsComeFromTheirCauses : Obligations.GracefulHaltsComeFromTheirCauses := by
  refine ⟨fun s r info hr => ⟨⟨fun ⟨hip, hcause⟩ => ?_, fun ⟨t, hs, h⟩ => ?_⟩, fun t hs h => ?_⟩, rfl, rfl, rfl⟩
  · exact ⟨_, step_of_haltCause hr hip hcause, rfl⟩
  · obtain ⟨hip, hcause, -⟩ := halt_of_step hr hs h
    exact ⟨hip, hcause⟩
  · obtain ⟨-, -, rfl⟩ := halt_of_step hr hs h
    rfl

end Sys2Proof.Machine
end

section
/-! Boot: which images it loads, what it loads of them, and what it refuses (70_reset_and_hazards.md R202 to R205). -/

namespace Sys2Proof.Machine

/-- Boot loads every image that fits, into the memory of reset. -/
theorem boot_of_fits {image : List Byte} (capacity : Option Nat) (inp : InputChannel)
    (h : image.length / 2 ≤ 32768) :
    boot capacity inp image = .next { State.resetWith capacity inp with mem := loadBytes ⟨[]⟩ 0 image } := by
  rw [boot_eq, if_neg (Nat.not_lt.2 h)]

/-- After whole words one more byte has no pair, and the load drops it (70_reset_and_hazards.md R204). -/
theorem loadBytes_append_singleton {image : List Byte} (heven : image.length % 2 = 0) (m : Memory) (k : Nat)
    (b : Byte) : loadBytes m k (image ++ [b]) = loadBytes m k image := by
  induction image using List.twoStepInduction generalizing m k with
  | nil => rfl
  | singleton c => cases heven
  | cons_cons lo hi rest ih _ =>
    have hrest : rest.length % 2 = 0 := by
      simp only [List.length_cons] at heven
      omega
    exact ih hrest (m.write k (hi ++ lo)) (k + 1)

/-- Settles O13: the load keeps the invariant of the reset state. -/
theorem bootMeetsTheInvariant : Obligations.BootMeetsTheInvariant :=
  fun _ _ _ _ h => inv_boot h

/-- Settles O51: boot answers the reset state with the image in memory, and `read_boot` says what its cells hold. -/
theorem bootLoadsLittleEndianPairs : Obligations.BootLoadsLittleEndianPairs := by
  intro capacity inp image hfit
  have hboot := boot_of_fits capacity inp hfit
  exact ⟨_, hboot, rfl, read_boot hboot⟩

/-- Settles O52: the odd byte changes neither the number of whole words nor the memory after the load. -/
theorem oddTrailingByteIsDropped : Obligations.OddTrailingByteIsDropped := by
  intro capacity inp image b heven
  have hwords : (image ++ [b]).length / 2 = image.length / 2 := by
    simp only [List.length_append, List.length_singleton]
    omega
  rw [boot_eq, boot_eq, hwords, loadBytes_append_singleton heven]

/-- Settles O53: each refusal is the branch of its condition, in `boot` and in `load`. -/
theorem loadRefusesLongImagesAndReloads : Obligations.LoadRefusesLongImagesAndReloads := by
  refine ⟨fun capacity inp image hlong => ?_, fun s image hs => if_pos hs⟩
  rw [boot_eq, if_pos hlong]

end Sys2Proof.Machine
end
